-- ==== Sys2Proof/Word.lean ====
section
/-! DEFINITION. The words of the hardware: 8-bit registers and bytes, 16-bit instruction words and address
registers, 12-bit immediate addresses, register indices (00_scope.md R4, R7; 30_encoding.md R52). -/

namespace Sys2Proof

/-- A byte: a general register, a timer, a memory cell, the immediate `kk`. -/
abbrev Byte := BitVec 8

/-- A 16-bit word: an instruction word, `I`, `pc`, a call-stack slot. -/
abbrev Word := BitVec 16

/-- The 12-bit immediate address `nnn` (R52, R54). -/
abbrev Addr12 := BitVec 12

/-- A nibble: the operation class and the sub-operation selector of an instruction word (R52). -/
abbrev Nibble := BitVec 4

/-- The index of a general register; all 16 values are legal wherever the field stands (R54). -/
abbrev Reg := Fin 16

end Sys2Proof
end

