-- ==== Sys2Proof/Syntax.lean ====
section
/-! DEFINITION. The 27 instructions of 30_encoding.md R56, one constructor per row of spec/opcode_table.json, in the
table's order. The operands are the fields of R52, at their widths, so every value of this type is an instruction. -/

namespace Sys2Proof

/-- An instruction with its operands (30_encoding.md R56). `shr` and `shl` carry the `y` field of their word, which
their meaning ignores (R53, R57). -/
inductive Instr where
  /-- `RET` (R70). -/
  | ret
  /-- `JP nnn` (R71). -/
  | jp (nnn : Addr12)
  /-- `CALL nnn` (R72). -/
  | call (nnn : Addr12)
  /-- `SEI Vx, kk` (R80). -/
  | sei (x : Reg) (kk : Byte)
  /-- `SNEI Vx, kk` (R81). -/
  | snei (x : Reg) (kk : Byte)
  /-- `SER Vx, Vy` (R82). -/
  | ser (x y : Reg)
  /-- `LDI Vx, kk` (R85). -/
  | ldi (x : Reg) (kk : Byte)
  /-- `ADDI Vx, kk` (R86). -/
  | addi (x : Reg) (kk : Byte)
  /-- `MOV Vx, Vy` (R91). -/
  | mov (x y : Reg)
  /-- `OR Vx, Vy` (R92). -/
  | or (x y : Reg)
  /-- `AND Vx, Vy` (R93). -/
  | and (x y : Reg)
  /-- `XOR Vx, Vy` (R94). -/
  | xor (x y : Reg)
  /-- `ADD Vx, Vy` (R95). -/
  | add (x y : Reg)
  /-- `SUB Vx, Vy` (R96). -/
  | sub (x y : Reg)
  /-- `SHR Vx` (R97); `y` is in the word and ignored. -/
  | shr (x y : Reg)
  /-- `SUBN Vx, Vy` (R98). -/
  | subn (x y : Reg)
  /-- `SHL Vx` (R99); `y` is in the word and ignored. -/
  | shl (x y : Reg)
  /-- `LDA nnn` (R105). -/
  | lda (nnn : Addr12)
  /-- `JPO nnn` (R73). -/
  | jpo (nnn : Addr12)
  /-- `RND Vx, kk` (R110). -/
  | rnd (x : Reg) (kk : Byte)
  /-- `GDT Vx` (R113). -/
  | gdt (x : Reg)
  /-- `SDT Vx` (R114). -/
  | sdt (x : Reg)
  /-- `SST Vx` (R115). -/
  | sst (x : Reg)
  /-- `ADDA Vx` (R106). -/
  | adda (x : Reg)
  /-- `BCD Vx` (R118). -/
  | bcd (x : Reg)
  /-- `STM Vx` (R119). -/
  | stm (x : Reg)
  /-- `LDM Vx` (R120). -/
  | ldm (x : Reg)
  deriving DecidableEq, Repr

end Sys2Proof
end

