-- ==== Sys2Proof/WellFormed.lean ====
section
/-! DEFINITION. Which instruction words are well formed. Every term of `Instr` is an instruction, because its operand
types carry the ranges of R52 and R54; what can be ill formed on this hardware is a WORD. The check below is the
opcode map of 30_encoding.md R56, row by row, as the spec prints it (mask and match); the decoder is written from
R55's function instead, so that the two can be held against each other. -/

namespace Sys2Proof

/-- A row of the opcode map: `w` is this row's instruction iff `w &&& mask = pattern` (R56). -/
structure OpcodeRow where
  mnemonic : String
  pattern : Word
  mask : Word
  deriving DecidableEq, Repr

/-- A word matches a row (R56). -/
def OpcodeRow.fits (r : OpcodeRow) (w : Word) : Bool := w &&& r.mask == r.pattern

/-- Rows whose low 12 bits are all operand, and `RET`, which has none (formats N, A and I of R53). -/
def wideRows : List OpcodeRow :=
  [ ⟨"RET", 0x00EE, 0xFFFF⟩, ⟨"JP", 0x1000, 0xF000⟩, ⟨"CALL", 0x2000, 0xF000⟩, ⟨"SEI", 0x3000, 0xF000⟩,
    ⟨"SNEI", 0x4000, 0xF000⟩, ⟨"LDI", 0x6000, 0xF000⟩, ⟨"ADDI", 0x7000, 0xF000⟩, ⟨"LDA", 0xA000, 0xF000⟩,
    ⟨"JPO", 0xB000, 0xF000⟩, ⟨"RND", 0xC000, 0xF000⟩ ]

/-- Rows with two register fields and a selector in the bottom nibble (format R of R53). -/
def pairRows : List OpcodeRow :=
  [ ⟨"SER", 0x5000, 0xF00F⟩, ⟨"MOV", 0x8000, 0xF00F⟩, ⟨"OR", 0x8001, 0xF00F⟩, ⟨"AND", 0x8002, 0xF00F⟩,
    ⟨"XOR", 0x8003, 0xF00F⟩, ⟨"ADD", 0x8004, 0xF00F⟩, ⟨"SUB", 0x8005, 0xF00F⟩, ⟨"SHR", 0x8006, 0xF00F⟩,
    ⟨"SUBN", 0x8007, 0xF00F⟩, ⟨"SHL", 0x800E, 0xF00F⟩ ]

/-- Rows with one register field and a selector in the low byte (format X of R53). -/
def selectorRows : List OpcodeRow :=
  [ ⟨"GDT", 0xF007, 0xF0FF⟩, ⟨"SDT", 0xF015, 0xF0FF⟩, ⟨"SST", 0xF018, 0xF0FF⟩, ⟨"ADDA", 0xF01E, 0xF0FF⟩,
    ⟨"BCD", 0xF033, 0xF0FF⟩, ⟨"STM", 0xF055, 0xF0FF⟩, ⟨"LDM", 0xF065, 0xF0FF⟩ ]

/-- The opcode map, 27 rows (R56). -/
def opcodeRows : List OpcodeRow := wideRows ++ pairRows ++ selectorRows

/-- A word is well formed iff it matches a row of the opcode map; every other word is unrecognised (R56, R58). -/
def wellFormedWord (w : Word) : Bool := opcodeRows.any fun r => r.fits w

/-- The mnemonic of an instruction, as spec/opcode_table.json spells it (R56, R61). -/
def Instr.mnemonic : Instr → String
  | .ret => "RET"
  | .jp _ => "JP"
  | .call _ => "CALL"
  | .sei _ _ => "SEI"
  | .snei _ _ => "SNEI"
  | .ser _ _ => "SER"
  | .ldi _ _ => "LDI"
  | .addi _ _ => "ADDI"
  | .mov _ _ => "MOV"
  | .or _ _ => "OR"
  | .and _ _ => "AND"
  | .xor _ _ => "XOR"
  | .add _ _ => "ADD"
  | .sub _ _ => "SUB"
  | .shr _ _ => "SHR"
  | .subn _ _ => "SUBN"
  | .shl _ _ => "SHL"
  | .lda _ => "LDA"
  | .jpo _ => "JPO"
  | .rnd _ _ => "RND"
  | .gdt _ => "GDT"
  | .sdt _ => "SDT"
  | .sst _ => "SST"
  | .adda _ => "ADDA"
  | .bcd _ => "BCD"
  | .stm _ => "STM"
  | .ldm _ => "LDM"

end Sys2Proof
end

