-- ==== Sys2Proof/Decode.lean ====
section
/-! DEFINITION. The decoder of 30_encoding.md R55, total on every word and every list of bytes and rejecting by name,
and after it the encoder, from the layouts of R53. -/

namespace Sys2Proof

/-- Why a word or a byte list is not an instruction (R57, R58). On the machine every `word…` reason is the one fault
`UnrecognizedInstruction`. -/
inductive DecodeReject where
  /-- Class 0 other than the word `0x00EE` (R57, R58). -/
  | wordOfClassZero
  /-- Class 5 with a bottom nibble other than 0 (R57, R58). -/
  | wordSkipSelector
  /-- Class 8 with a selector that no row has (R58). -/
  | wordAluSelector
  /-- Classes 9, D and E, which this hardware does not have (R58, R59). -/
  | wordAbsentClass
  /-- Class F with a low byte that no row has (R58). -/
  | wordMiscSelector
  /-- Fewer than the two bytes of an instruction (R51). -/
  | tooShort
  deriving DecidableEq, Repr

/-- Field `c`, the operation class `w[15:12]` (R52). -/
def fieldClass (w : Word) : Nibble := w.extractLsb' 12 4

/-- Field `x`, the register index `w[11:8]` (R52). -/
def fieldX (w : Word) : Reg := (w.extractLsb' 8 4).toFin

/-- Field `y`, the register index `w[7:4]` (R52). -/
def fieldY (w : Word) : Reg := (w.extractLsb' 4 4).toFin

/-- Field `n`, the sub-operation selector `w[3:0]` (R52). -/
def fieldN (w : Word) : Nibble := w.extractLsb' 0 4

/-- Field `kk`, the immediate byte or low-byte selector `w[7:0]` (R52). -/
def fieldKK (w : Word) : Byte := w.extractLsb' 0 8

/-- Field `nnn`, the immediate address `w[11:0]` (R52). -/
def fieldNNN (w : Word) : Addr12 := w.extractLsb' 0 12

/-- Second level of dispatch in class 8, by the bottom nibble (R55). -/
def decodeAlu (w : Word) : Except DecodeReject Instr :=
  match (fieldN w).toNat with
  | 0x0 => .ok (.mov (fieldX w) (fieldY w))
  | 0x1 => .ok (.or (fieldX w) (fieldY w))
  | 0x2 => .ok (.and (fieldX w) (fieldY w))
  | 0x3 => .ok (.xor (fieldX w) (fieldY w))
  | 0x4 => .ok (.add (fieldX w) (fieldY w))
  | 0x5 => .ok (.sub (fieldX w) (fieldY w))
  | 0x6 => .ok (.shr (fieldX w) (fieldY w))
  | 0x7 => .ok (.subn (fieldX w) (fieldY w))
  | 0xE => .ok (.shl (fieldX w) (fieldY w))
  | _ => .error .wordAluSelector

/-- Second level of dispatch in class F, by the low byte (R55). -/
def decodeMisc (w : Word) : Except DecodeReject Instr :=
  match (fieldKK w).toNat with
  | 0x07 => .ok (.gdt (fieldX w))
  | 0x15 => .ok (.sdt (fieldX w))
  | 0x18 => .ok (.sst (fieldX w))
  | 0x1E => .ok (.adda (fieldX w))
  | 0x33 => .ok (.bcd (fieldX w))
  | 0x55 => .ok (.stm (fieldX w))
  | 0x65 => .ok (.ldm (fieldX w))
  | _ => .error .wordMiscSelector

/-- `decode(w)` of R55: first the top nibble, then the selector of an overloaded class. -/
def decodeWord (w : Word) : Except DecodeReject Instr :=
  match (fieldClass w).toNat with
  | 0x0 => if w = 0x00EE then .ok .ret else .error .wordOfClassZero
  | 0x1 => .ok (.jp (fieldNNN w))
  | 0x2 => .ok (.call (fieldNNN w))
  | 0x3 => .ok (.sei (fieldX w) (fieldKK w))
  | 0x4 => .ok (.snei (fieldX w) (fieldKK w))
  | 0x5 => if (fieldN w).toNat = 0x0 then .ok (.ser (fieldX w) (fieldY w)) else .error .wordSkipSelector
  | 0x6 => .ok (.ldi (fieldX w) (fieldKK w))
  | 0x7 => .ok (.addi (fieldX w) (fieldKK w))
  | 0x8 => decodeAlu w
  | 0xA => .ok (.lda (fieldNNN w))
  | 0xB => .ok (.jpo (fieldNNN w))
  | 0xC => .ok (.rnd (fieldX w) (fieldKK w))
  | 0xF => decodeMisc w
  | _ => .error .wordAbsentClass

/-- The 16-bit word of two bytes in memory order: the first byte is the high byte (R34, R35). -/
def wordOfBytes (hi lo : Byte) : Word := hi ++ lo

/-- The high byte of a word, which lies at the lower address (R33, R35). -/
def highByte (w : Word) : Byte := w.extractLsb' 8 8

/-- The low byte of a word, which lies at the higher address (R33, R35). -/
def lowByte (w : Word) : Byte := w.extractLsb' 0 8

/-- Decode the instruction at the head of a byte list and give the rest of the list (R34, R51, R55). -/
def decode : List Byte → Except DecodeReject (Instr × List Byte)
  | hi :: lo :: rest => (decodeWord (wordOfBytes hi lo)).map fun i => (i, rest)
  | _ => .error .tooShort

/-- Format A of R53: `cccc nnnn nnnn nnnn`. -/
def wordA (c : Nibble) (nnn : Addr12) : Word := c ++ nnn

/-- Format I of R53: `cccc xxxx kkkk kkkk`; format X is the same layout with a selector as the low byte. -/
def wordI (c : Nibble) (x : Reg) (kk : Byte) : Word := c ++ (BitVec.ofFin x : Nibble) ++ kk

/-- Format R of R53: `cccc xxxx yyyy ssss`. -/
def wordR (c : Nibble) (x y : Reg) (n : Nibble) : Word :=
  c ++ (BitVec.ofFin x : Nibble) ++ (BitVec.ofFin y : Nibble) ++ n

/-- The instruction word of an instruction (R53, R56). -/
def encode : Instr → Word
  | .ret => 0x00EE
  | .jp nnn => wordA 0x1 nnn
  | .call nnn => wordA 0x2 nnn
  | .sei x kk => wordI 0x3 x kk
  | .snei x kk => wordI 0x4 x kk
  | .ser x y => wordR 0x5 x y 0x0
  | .ldi x kk => wordI 0x6 x kk
  | .addi x kk => wordI 0x7 x kk
  | .mov x y => wordR 0x8 x y 0x0
  | .or x y => wordR 0x8 x y 0x1
  | .and x y => wordR 0x8 x y 0x2
  | .xor x y => wordR 0x8 x y 0x3
  | .add x y => wordR 0x8 x y 0x4
  | .sub x y => wordR 0x8 x y 0x5
  | .shr x y => wordR 0x8 x y 0x6
  | .subn x y => wordR 0x8 x y 0x7
  | .shl x y => wordR 0x8 x y 0xE
  | .lda nnn => wordA 0xA nnn
  | .jpo nnn => wordA 0xB nnn
  | .rnd x kk => wordI 0xC x kk
  | .gdt x => wordI 0xF x 0x07
  | .sdt x => wordI 0xF x 0x15
  | .sst x => wordI 0xF x 0x18
  | .adda x => wordI 0xF x 0x1E
  | .bcd x => wordI 0xF x 0x33
  | .stm x => wordI 0xF x 0x55
  | .ldm x => wordI 0xF x 0x65

/-- The instruction word that a table number stands for: its low `nbits` bits, the rest zero; spec/opcode_table.json
numbers the 16 bits of the one word (R51, notes/assumptions/20.md). -/
def tableWord (nbits w : Nat) : Word := BitVec.ofNat 16 (w % 2 ^ nbits)

/-- What the decoder reads from an instruction whose bits are `w`, numbered as spec/opcode_table.json numbers them:
the word is laid out high byte first, as the hardware stores it (R35), and given to `decode`. -/
def decodeTableWord (nbits w : Nat) : Option Instr :=
  match decode [highByte (tableWord nbits w), lowByte (tableWord nbits w)] with
  | .ok (i, _) => some i
  | .error _ => none

end Sys2Proof
end

