-- ==== Sys2Proof/Machine/Flags.lean ====
section
/-! DEFINITION. The flag computations. The hardware has no flags register: a flag is the byte 0x00 or 0x01 that one of
five instructions writes to `VF` (10_state.md R12; 43_alu.md R95 to R99). -/

namespace Sys2Proof.Machine

/-- A flag as the byte that is written to `VF` (R12). -/
def flagByte (b : Bool) : Byte := if b then 0x01 else 0x00

/-- The carry of `ADD`: 1 iff the integer sum exceeds 255 (R95). -/
def carryFlag (a b : Byte) : Byte := flagByte (decide (a.toNat + b.toNat > 255))

/-- The flag of `SUB` and `SUBN`: 1 iff the minuend is STRICTLY greater, unsigned (R96, R98). -/
def greaterFlag (a b : Byte) : Byte := flagByte (decide (a.toNat > b.toNat))

/-- The bit `SHR` shifts out: bit 0 (R97). -/
def shiftedOutRight (a : Byte) : Byte := a &&& 1

/-- The bit `SHL` shifts out: bit 7 (R99). -/
def shiftedOutLeft (a : Byte) : Byte := (a >>> 7) &&& 1

end Sys2Proof.Machine
end

