-- ==== Sys2Proof/Config.lean ====
section
/-! DEFINITION. What an implementation fixes: the parameters of 00_scope.md R4, and the free value of the
randomness interface (R4 `RAND`, 45_random.md R111). -/

namespace Sys2Proof

/-- `MEM_SIZE`: bytes in the Memory Image (R4). -/
def Config.memSize : Nat := 4096

/-- The largest legal address, `0xFFF` (R4, R30). -/
def Config.maxAddress : Nat := 0xFFF

/-- `ENTRY`: the first address past the reserved region, where `pc` starts and programs are loaded (R4). -/
def Config.entry : Nat := 0x200

/-- `MAX_PROGRAM`: `MEM_SIZE - RESERVED_SIZE` (R4, 70_reset_and_hazards.md R163). -/
def Config.maxProgram : Nat := 3584

/-- `FLAG_REG`: the register that receives the flags, `VF` (R4, 10_state.md R12). -/
def Config.flagReg : Reg := 15

/-- `SP_MAX`: the largest legal stack pointer (R4, 10_state.md R16, D8). -/
def Config.spMax : Reg := 15

/-- FREE VALUE (notes/assumptions/15.md, R111, D17): the answer of the randomness interface to draw number `n`,
any byte. It has no body: no proof can learn a value of it. -/
opaque Config.randomByte : Nat → Byte

end Sys2Proof
end

