-- ==== Sys2Proof/Machine/State.lean ====
section
/-! DEFINITION. The machine's state as plain data (10_state.md R10), the reasons a step can stop (60_exceptions.md
R130), and the state after reset (10_state.md R20, 70_reset_and_hazards.md R160). -/

namespace Sys2Proof.Machine

/-- The Memory Image as data: (address, byte) pairs with strictly rising addresses below 4096, no entry holding the
byte that an unlisted address reads as (R18; notes/assumptions/18.md). -/
abbrev Memory := List Host.Cell

/-- The complete state of the block (R10), and `draws`, the model's own counter. -/
structure State where
  /-- The general registers `V[0]`..`V[15]`; `V[15]` is the flag register `VF` (R11, R12). -/
  v : Vector Byte 16
  /-- The address register `I` (R13). -/
  i : Word
  /-- The program counter (R14). -/
  pc : Word
  /-- The stack pointer, 0 when the call stack is empty (R16). -/
  sp : Fin 16
  /-- The call-stack slots `stack[0]`..`stack[15]` (R16). -/
  stack : Vector Word 16
  /-- The delay timer `DT` (R17). -/
  dt : Byte
  /-- The sound timer `ST` (R17). -/
  st : Byte
  /-- The Memory Image `mem[0x000]`..`mem[0xFFF]` (R18). -/
  mem : List Host.Cell
  /-- The MODEL's own field, not the spec's: how many random bytes have been drawn (R111, D17;
  notes/assumptions/15.md). -/
  draws : Nat
  deriving DecidableEq, Repr

/-- The faults of the spec (R130). A fault is the result of the operation and carries no state: the block is left
exactly as it was (R135, R136). All of them are SAFE: each stops where the spec stops. -/
inductive Fault where
  /-- `UnrecognizedInstruction`, raised by `step` when the fetched word matches no row of the opcode map; carries the
  word and the address it was fetched from (R58, R132). Safe: the spec's own fault. -/
  | unrecognizedInstruction (word : Word) (addr : Word)
  /-- `StackUnderflow`, raised by `RET` when `sp = 0` (R70). Safe: the spec's own fault. -/
  | stackUnderflow
  /-- `StackOverflow`, raised by `CALL` when `sp = 15` (R72). Safe: the spec's own fault. -/
  | stackOverflow
  /-- `AddressOutOfRange`, raised by the fetch, by `BCD`, `STM`, `LDM`, by the bound check on every new pc and by the
  memory port; carries the offending address (R130, R133). Safe: the spec's own fault. -/
  | addressOutOfRange (addr : Nat)
  /-- `ProgramTooLarge`, raised by `load` only, never by `step` (R143, R163). Safe: the spec's own fault. -/
  | programTooLarge
  deriving DecidableEq, Repr

/-- Reasons for which an operation has no meaning. -/
inductive Refusal where
  /-- An instruction the model has not reached; raised by no arm of this model. Safe: it only stops. -/
  | notModelled (mnemonic : String)
  /-- Any operation but `reset` before the first `reset`, raised by `hostOp` (R21, D18). Safe: it only stops. -/
  | beforeReset
  deriving DecidableEq, Repr

/-- The machine right after `reset()` (R20, R160); `draws` at 0 is a DESIGN CHOICE (notes/assumptions/15.md). -/
def State.reset : State where
  v := Vector.replicate 16 0x00
  i := 0x0000
  pc := BitVec.ofNat 16 Config.entry
  sp := 0
  stack := Vector.replicate 16 0x0000
  dt := 0x00
  st := 0x00
  mem := []
  draws := 0

end Sys2Proof.Machine
end

