-- ==== Sys2Proof/Machine/Memory.lean ====
section
/-! DEFINITION. The Memory Image: one byte read, one byte written, a run of bytes written in ascending order, and the
canonical form every operation keeps (20_memory.md R30 to R37). The bounds check is not here but in the memory port
(Machine/Ops.lean), as the spec has it. -/

namespace Sys2Proof.Machine

/-- What an address that the list does not name reads as: the reset contents of memory (R20;
notes/assumptions/18.md). -/
def unlistedByte : Byte := 0x00

/-- The stored byte `mem[a]` (R7, R31). -/
def memGet : Memory → Nat → Byte
  | [], _ => unlistedByte
  | (b, u) :: rest, a => if a = b then u else memGet rest a

/-- `mem[a] <- u`, keeping the canonical form (R32). -/
def memSet : Memory → Nat → Byte → Memory
  | [], a, u => if u = unlistedByte then [] else [(a, u)]
  | (b, w) :: rest, a, u =>
    if a < b then
      if u = unlistedByte then (b, w) :: rest else (a, u) :: (b, w) :: rest
    else if a = b then
      if u = unlistedByte then rest else (a, u) :: rest
    else (b, w) :: memSet rest a u

/-- Write a run of bytes at `a`, `a + 1`, …, in ascending order (47_memory_ops.md R118, R119; R163; D29). -/
def storeBytes : Memory → Nat → List Byte → Memory
  | m, _, [] => m
  | m, a, u :: us => storeBytes (memSet m a u) (a + 1) us

/-- The 4096 bytes that a list of any form stands for, in the canonical form: where a list names an address more than
once its first entry is the byte there, and an entry outside the image names no byte (R18; raw access, R149;
notes/assumptions/25.md). -/
def canonicalMem : Memory → Memory
  | [] => []
  | (a, u) :: rest => if a < Config.memSize then memSet (canonicalMem rest) a u else canonicalMem rest

/-- The canonical form from address `lo` on: addresses rise strictly and stay below 4096, and no entry holds the
byte an unlisted address reads as. -/
def memWfFrom : Nat → Memory → Bool
  | _, [] => true
  | lo, (a, u) :: rest =>
    decide (lo ≤ a) && decide (a < Config.memSize) && decide (u ≠ unlistedByte) && memWfFrom (a + 1) rest

/-- The memory is in its canonical form. -/
def Memory.wf (m : Memory) : Bool := memWfFrom 0 m

end Sys2Proof.Machine
end

