-- ==== Sys2Proof/Machine/Operands.lean ====
section
/-! DEFINITION. The operand forms: a register selected by a field, the registers `V[0]`..`V[x]`, the memory operand
`I + k`, the zero-extended immediate address, the decimal digits, and the next value of pc (10_state.md R11, R15;
20_memory.md R39; 30_encoding.md R54). -/

namespace Sys2Proof.Machine

/-- Read of `V[x]` (R11). -/
def getV (s : State) (x : Reg) : Byte := s.v[x]

/-- The bytes `V[0]`, …, `V[x]`, inclusive of `x`, lowest register first (47_memory_ops.md R119). -/
def firstRegs (s : State) (x : Reg) : List Byte := s.v.toList.take (x.val + 1)

/-- `zext_16(nnn)` (R54). -/
def zext16 (nnn : Addr12) : Word := nnn.zeroExtend 16

/-- The effective address `I + k` over the integers, never wrapped (R39). -/
def effAddr (s : State) (k : Nat) : Nat := s.i.toNat + k

/-- The top of the call stack, `stack[sp]` (R16). -/
def stackTop (s : State) : Word := s.stack[s.sp]

/-- `pc + 2` over the integers: the instruction after this one (R15). -/
def nextPc (s : State) : Nat := s.pc.toNat + 2

/-- The skips: `pc + 4` when the condition holds, else `pc + 2`, over the integers (R15, 41_skip.md R83). -/
def skipPc (s : State) (c : Bool) : Nat := if c then s.pc.toNat + 4 else s.pc.toNat + 2

/-- The hundreds, tens and units digits of a byte, in this order (47_memory_ops.md R118). -/
def bcdDigits (b : Byte) : List Byte :=
  [BitVec.ofNat 8 (b.toNat / 100), BitVec.ofNat 8 (b.toNat / 10 % 10), BitVec.ofNat 8 (b.toNat % 10)]

end Sys2Proof.Machine
end

