-- ==== Sys2Proof/Machine/Ops.lean ====
section
/-! DEFINITION. The named operations over registers, the call stack and memory; the ONE way a fault is taken
(`raise`, 60_exceptions.md R136); the check that ends every instruction (`commit`, 30_encoding.md R50 steps 5 and 6);
the memory port; and the block's operations `tick()`, `load()`,
`reset()` and raw seeding. -/

namespace Sys2Proof.Machine

/-- The result of `step()`. -/
abbrev Result := Host.Outcome State Fault Refusal

/-- Taking a fault. The hardware has no handler, no saved register and no vector: a fault is returned to the caller of
`step()` and the step changes no state (R135, R136). -/
def raise (f : Fault) : Result := .fault f

/-- `V[x] <- b` (R11). -/
def setV (s : State) (x : Reg) (b : Byte) : State := { s with v := s.v.set x b }

/-- `I <- w` (R13). -/
def setI (s : State) (w : Word) : State := { s with i := w }

/-- `pc <- w` (R14). -/
def setPc (s : State) (w : Word) : State := { s with pc := w }

/-- `sp <- j` (R16). -/
def setSp (s : State) (j : Fin 16) : State := { s with sp := j }

/-- `stack[j] <- w` (R16). -/
def setStack (s : State) (j : Fin 16) (w : Word) : State := { s with stack := s.stack.set j w }

/-- `DT <- b` (R17). -/
def setDt (s : State) (b : Byte) : State := { s with dt := b }

/-- `ST <- b` (R17). -/
def setSt (s : State) (b : Byte) : State := { s with st := b }

/-- The Memory Image becomes `m` (R18). -/
def setMem (s : State) (m : Memory) : State := { s with mem := m }

/-- `draw_byte()`: the answer of the randomness interface to the next draw (R110, R111). -/
def drawnByte (s : State) : Byte := Config.randomByte s.draws

/-- One answer of the randomness interface has been taken (R110). -/
def countDraw (s : State) : State := { s with draws := s.draws + 1 }

/-- `sp <- sp + 1; stack[sp] <- w` (R72); the caller has checked `sp < 15`. -/
def pushStack (s : State) (w : Word) : State := setStack (setSp s (s.sp + 1)) (s.sp + 1) w

/-- `sp <- sp - 1` (R70); the caller has checked `sp > 0`; the slot keeps its value (R16). -/
def popStack (s : State) : State := setSp s (s.sp - 1)

/-- The end of every instruction: the new pc is bounds-checked, then the writes and the new pc are committed
(R50 steps 5 and 6). -/
def commit (s : State) (npc : Nat) : Result :=
  if npc > Config.maxAddress then raise (.addressOutOfRange npc) else .next (setPc s (BitVec.ofNat 16 npc))

/-- The check of a memory instruction before its first access: the whole range `I`..`I + kmax` lies in the image,
else the fault names the smallest address outside it (R39). -/
def checkData (s : State) (kmax : Nat) (body : Result) : Result :=
  if effAddr s kmax > Config.maxAddress then raise (.addressOutOfRange (max s.i.toNat Config.memSize)) else body

/-- `V[k] <- mem[a + k]` for `k = 0, …, x`; the registers above `x` keep their values (R120). -/
def loadRegs (s : State) (a : Nat) (x : Reg) : State :=
  { s with v := Vector.ofFn fun k : Fin 16 => if k ≤ x then memGet s.mem (a + k.val) else s.v[k] }

/-- `MemRead(addr, 1)`, the port's `read(addr)` (R31). -/
def memRead (s : State) (addr : Nat) : Except Fault Byte :=
  if addr ≤ Config.maxAddress then .ok (memGet s.mem addr) else .error (.addressOutOfRange addr)

/-- `MemWrite(addr, 1, b)`, the port's `write(addr, byte)` (R32). -/
def memWrite (s : State) (addr : Nat) (b : Byte) : Except Fault State :=
  if addr ≤ Config.maxAddress then .ok (setMem s (memSet s.mem addr b)) else .error (.addressOutOfRange addr)

/-- The port's `writeInstruction(addr, instr16)`: both bytes, the most significant first, or a fault and neither
(R33); the fault names the first address outside the image. -/
def writeInstruction (s : State) (addr : Nat) (w : Word) : Except Fault State :=
  if addr + 1 ≤ Config.maxAddress then .ok (setMem s (storeBytes s.mem addr [highByte w, lowByte w]))
  else .error (.addressOutOfRange (max addr Config.memSize))

/-- `MemRead(pc, 2)`: the instruction fetch, two byte reads, first byte high (R34, R50 steps 1 and 2). -/
def fetchWord (s : State) : Except Fault Word :=
  match memRead s s.pc.toNat with
  | .error f => .error f
  | .ok hi =>
    match memRead s (s.pc.toNat + 1) with
    | .error f => .error f
    | .ok lo => .ok (wordOfBytes hi lo)

/-- Fetch and decode (R50 steps 1 to 3); an unrecognised word is reported with its address (R58, R132). -/
def fetchInstr (s : State) : Except Fault Instr :=
  match fetchWord s with
  | .error f => .error f
  | .ok w =>
    match decodeWord w with
    | .error _ => .error (.unrecognizedInstruction w s.pc)
    | .ok i => .ok i

/-- One timer after one tick: down by one, stopping at zero (R146). -/
def tickTimer (t : Byte) : Byte := if t = 0 then 0 else t - 1

/-- `tick()`: both timers count down; nothing else changes (R146). -/
def tick (s : State) : State := { s with dt := tickTimer s.dt, st := tickTimer s.st }

/-- `load(bytes, len)` with `len` the length of the list: rejected before any copy if too large, else the bytes are
copied from `0x200` on (R163). -/
def load (s : State) (bytes : List Byte) : Result :=
  if bytes.length > Config.maxProgram then raise .programTooLarge
  else .next (setMem s (storeBytes s.mem Config.entry bytes))

/-- `reset()` of a block that is running: every piece of state takes its reset value (R160, R161); the model's draw
counter goes on, since the randomness source is no state of the block (R19, R111). -/
def resetBlock (s : State) : State := { State.reset with draws := s.draws }

/-- Raw access by a test harness: every field of the block takes the value that `t` has there (R149). The memory is
brought to its canonical form, and the model's draw counter, no field of the block, goes on
(notes/assumptions/25.md). -/
def seedState (s t : State) : State := { t with mem := canonicalMem t.mem, draws := s.draws }

/-- The instruction word `w` placed where the next fetch reads it; where nothing can be fetched (`pc > 0xFFE`),
nothing is placed (R34; notes/assumptions/20.md). -/
def placeInstruction (s : State) (w : Word) : State :=
  if s.pc.toNat + 1 ≤ Config.maxAddress then setMem s (storeBytes s.mem s.pc.toNat [highByte w, lowByte w]) else s

end Sys2Proof.Machine
end

