-- ==== Sys2Proof/Machine/AddressRegister.lean ====
section
/-! DEFINITION. Address register: LDA, ADDA (44_address_register.md R105, R106). -/

namespace Sys2Proof.Machine

/-- `LDA nnn` (R105). -/
def execLda (nnn : Addr12) (s : State) : Result := commit (setI s (zext16 nnn)) (nextPc s)

/-- `ADDA Vx` (R106): modulo 65536, no 12-bit mask, no flag. -/
def execAdda (x : Reg) (s : State) : Result := commit (setI s (s.i + (getV s x).zeroExtend 16)) (nextPc s)

end Sys2Proof.Machine
end

