-- ==== Sys2Proof/Machine/Alu.lean ====
section
/-! DEFINITION. Register-register ALU: MOV, OR, AND, XOR, ADD, SUB, SHR, SUBN, SHL (43_alu.md R90 to R100). The lines
of each rule's pseudocode are executed in the order written, each reading the registers as the earlier lines left
them (R90): where two registers are written, `s1` is the state after the first write. -/

namespace Sys2Proof.Machine

/-- `MOV Vx, Vy` (R91). -/
def execMov (x y : Reg) (s : State) : Result := commit (setV s x (getV s y)) (nextPc s)

/-- `OR Vx, Vy` (R92). -/
def execOr (x y : Reg) (s : State) : Result := commit (setV s x (getV s x ||| getV s y)) (nextPc s)

/-- `AND Vx, Vy` (R93). -/
def execAnd (x y : Reg) (s : State) : Result := commit (setV s x (getV s x &&& getV s y)) (nextPc s)

/-- `XOR Vx, Vy` (R94). -/
def execXor (x y : Reg) (s : State) : Result := commit (setV s x (getV s x ^^^ getV s y)) (nextPc s)

/-- `ADD Vx, Vy` (R95): both operands are read first, `VF` is written LAST. -/
def execAdd (x y : Reg) (s : State) : Result :=
  let s1 := setV s x (getV s x + getV s y)
  commit (setV s1 Config.flagReg (carryFlag (getV s x) (getV s y))) (nextPc s)

/-- `SUB Vx, Vy` (R96): `VF` is written FIRST, and the difference reads the registers after that. -/
def execSub (x y : Reg) (s : State) : Result :=
  let s1 := setV s Config.flagReg (greaterFlag (getV s x) (getV s y))
  commit (setV s1 x (getV s1 x - getV s1 y)) (nextPc s)

/-- `SHR Vx` (R97): `VF` first; the `y` field is ignored. -/
def execShr (x _y : Reg) (s : State) : Result :=
  let s1 := setV s Config.flagReg (shiftedOutRight (getV s x))
  commit (setV s1 x (getV s1 x >>> 1)) (nextPc s)

/-- `SUBN Vx, Vy` (R98): `VF` first, and the difference reads the registers after that. -/
def execSubn (x y : Reg) (s : State) : Result :=
  let s1 := setV s Config.flagReg (greaterFlag (getV s y) (getV s x))
  commit (setV s1 x (getV s1 y - getV s1 x)) (nextPc s)

/-- `SHL Vx` (R99): `VF` first; the `y` field is ignored. -/
def execShl (x _y : Reg) (s : State) : Result :=
  let s1 := setV s Config.flagReg (shiftedOutLeft (getV s x))
  commit (setV s1 x (getV s1 x <<< 1)) (nextPc s)

end Sys2Proof.Machine
end

