-- ==== Sys2Proof/Machine/ControlFlow.lean ====
section
/-! DEFINITION. Control transfer: RET, JP, CALL, JPO (40_control_flow.md R70 to R74). -/

namespace Sys2Proof.Machine

/-- `RET` (R70): control goes to the popped address exactly, with no increment. -/
def execRet (s : State) : Result :=
  if s.sp = 0 then raise .stackUnderflow else commit (popStack s) (stackTop s).toNat

/-- `JP nnn` (R71). -/
def execJp (nnn : Addr12) (s : State) : Result := commit s (zext16 nnn).toNat

/-- `CALL nnn` (R72): the address pushed is that of this `CALL` itself. -/
def execCall (nnn : Addr12) (s : State) : Result :=
  if s.sp = Config.spMax then raise .stackOverflow else commit (pushStack s s.pc) (zext16 nnn).toNat

/-- `JPO nnn` (R73): the base is always `V[0]`; the sum is not truncated. -/
def execJpo (nnn : Addr12) (s : State) : Result := commit s ((getV s 0).toNat + nnn.toNat)

end Sys2Proof.Machine
end

