-- ==== Sys2Proof/Machine/Immediate.lean ====
section
/-! DEFINITION. Register-immediate: LDI, ADDI (42_immediate.md R85, R86). -/

namespace Sys2Proof.Machine

/-- `LDI Vx, kk` (R85). -/
def execLdi (x : Reg) (kk : Byte) (s : State) : Result := commit (setV s x kk) (nextPc s)

/-- `ADDI Vx, kk` (R86): modulo 256, no flag. -/
def execAddi (x : Reg) (kk : Byte) (s : State) : Result := commit (setV s x (getV s x + kk)) (nextPc s)

end Sys2Proof.Machine
end

