-- ==== Sys2Proof/Machine/MemoryOps.lean ====
section
/-! DEFINITION. Memory instructions: BCD, STM, LDM (47_memory_ops.md R118 to R121). The whole range is checked before
the first access, and that check comes before the one on the new pc (60_exceptions.md R134). -/

namespace Sys2Proof.Machine

/-- `BCD Vx` (R118): hundreds at `I`, tens at `I + 1`, units at `I + 2`. -/
def execBcd (x : Reg) (s : State) : Result :=
  checkData s 2 (commit (setMem s (storeBytes s.mem (effAddr s 0) (bcdDigits (getV s x)))) (nextPc s))

/-- `STM Vx` (R119): `V[k]` to `I + k` for `k = 0, …, x`. -/
def execStm (x : Reg) (s : State) : Result :=
  checkData s x.val (commit (setMem s (storeBytes s.mem (effAddr s 0) (firstRegs s x))) (nextPc s))

/-- `LDM Vx` (R120): `V[k]` from `I + k` for `k = 0, …, x`. -/
def execLdm (x : Reg) (s : State) : Result :=
  checkData s x.val (commit (loadRegs s (effAddr s 0) x) (nextPc s))

end Sys2Proof.Machine
end

