-- ==== Sys2Proof/Machine/Random.lean ====
section
/-! DEFINITION. Random: RND (45_random.md R110, R111). -/

namespace Sys2Proof.Machine

/-- `RND Vx, kk` (R110): the drawn byte, a free value, ANDed with the mask. -/
def execRnd (x : Reg) (kk : Byte) (s : State) : Result :=
  commit (setV (countDraw s) x (drawnByte s &&& kk)) (nextPc s)

end Sys2Proof.Machine
end

