-- ==== Sys2Proof/Machine/Skip.lean ====
section
/-! DEFINITION. Conditional skips: SEI, SNEI, SER (41_skip.md R80 to R83). -/

namespace Sys2Proof.Machine

/-- `SEI Vx, kk` (R80). -/
def execSei (x : Reg) (kk : Byte) (s : State) : Result := commit s (skipPc s (getV s x == kk))

/-- `SNEI Vx, kk` (R81). -/
def execSnei (x : Reg) (kk : Byte) (s : State) : Result := commit s (skipPc s (getV s x != kk))

/-- `SER Vx, Vy` (R82). -/
def execSer (x y : Reg) (s : State) : Result := commit s (skipPc s (getV s x == getV s y))

end Sys2Proof.Machine
end

