-- ==== Sys2Proof/Machine/Timers.lean ====
section
/-! DEFINITION. Timer access: GDT, SDT, SST (46_timers.md R113 to R115). -/

namespace Sys2Proof.Machine

/-- `GDT Vx` (R113). -/
def execGdt (x : Reg) (s : State) : Result := commit (setV s x s.dt) (nextPc s)

/-- `SDT Vx` (R114). -/
def execSdt (x : Reg) (s : State) : Result := commit (setDt s (getV s x)) (nextPc s)

/-- `SST Vx` (R115). -/
def execSst (x : Reg) (s : State) : Result := commit (setSt s (getV s x)) (nextPc s)

end Sys2Proof.Machine
end

