-- ==== Sys2Proof/Machine/Step.lean ====
section
/-! DEFINITION. The step operation (30_encoding.md R50): fetch, decode, execute; a fault before execution ends the
step. -/

namespace Sys2Proof.Machine

/-- `step()` (R50). It never counts the timers down: `tick` is an operation of its own (60_exceptions.md R146). -/
def step (s : State) : Host.Outcome State Fault Refusal :=
  match fetchInstr s with
  | .error f => raise f
  | .ok i => exec i s

/-- `s` with the instruction whose table bits are `w` stored where `step` fetches next
(notes/assumptions/20.md). -/
def State.withFetchWord (s : State) (nbits w : Nat) : State := placeInstruction s (tableWord nbits w)

end Sys2Proof.Machine
end

