-- ==== Sys2Proof/Machine/HostOps.lean ====
section
/-! DEFINITION. The block as its caller sees it: the operations of 00_scope.md R5, each atomic, and a run as a
sequence of whole operations, so that every tick schedule (60_exceptions.md R147) is one such sequence. -/

namespace Sys2Proof.Machine

/-- The operations of R5 and no others; `step` and `tick` may come in any order, so this is where the open parameter
`TICK_SCHEDULE` lives (R6, R147, D16). -/
inductive HostOp where
  /-- `reset()` (R160). -/
  | reset
  /-- `load(bytes, len)` (R163). -/
  | load (bytes : List Byte)
  /-- `step()` (R50). -/
  | step
  /-- `tick()` (R146). -/
  | tick
  /-- The memory port's `read(addr)` (R31). -/
  | read (addr : Nat)
  /-- The memory port's `write(addr, byte)` (R32). -/
  | write (addr : Nat) (b : Byte)
  /-- The memory port's `writeInstruction(addr, instr16)` (R33). -/
  | writeInstruction (addr : Nat) (w : Word)
  /-- Raw state access by a test harness: every field takes the value it has in `t` (R149). -/
  | seed (t : State)
  /-- Raw state access by a test harness: inspect the fields (R149). -/
  | inspect
  deriving DecidableEq, Repr

/-- What an operation returns to its caller (R5). -/
inductive OpResult where
  /-- `Ok`, or an operation with no result. -/
  | ok
  /-- The byte that `read` returns. -/
  | byte (b : Byte)
  /-- The fields that `inspect` shows. -/
  | fields (s : State)
  /-- A fault, returned to the caller as a typed result (R136). -/
  | fault (f : Fault)
  /-- The operation has no meaning here (R21). -/
  | refused (r : Refusal)
  deriving DecidableEq, Repr

/-- The block before its first `reset()`, when every piece of state is unspecified (R21), and after it. -/
inductive Block where
  | unreset
  | live (s : State)
  deriving DecidableEq, Repr

/-- The block after an operation that answers an `Outcome`: a fault leaves it exactly as it was (R135). -/
def settle (s : State) : Result → Block × OpResult
  | .next t => (.live t, .ok)
  | .fault f => (.live s, .fault f)
  | .refused r => (.live s, .refused r)

/-- The block after an access through the memory port's write side (R32, R33). -/
def settleWrite (s : State) : Except Fault State → Block × OpResult
  | .ok t => (.live t, .ok)
  | .error f => (.live s, .fault f)

/-- One operation on a block that has been reset (R5). -/
def liveOp (s : State) : HostOp → Block × OpResult
  | .reset => (.live (resetBlock s), .ok)
  | .load bytes => settle s (Sys2Proof.Machine.load s bytes)
  | .step => settle s (Sys2Proof.Machine.step s)
  | .tick => (.live (Sys2Proof.Machine.tick s), .ok)
  | .read addr =>
    match memRead s addr with
    | .ok b => (.live s, .byte b)
    | .error f => (.live s, .fault f)
  | .write addr b => settleWrite s (memWrite s addr b)
  | .writeInstruction addr w => settleWrite s (Sys2Proof.Machine.writeInstruction s addr w)
  | .seed t => (.live (seedState s t), .ok)
  | .inspect => (.live s, .fields s)

/-- One operation on the block (R5); before the first `reset()` only `reset()` has a meaning (R21, D18). -/
def hostOp (op : HostOp) : Block → Block × OpResult
  | .live s => liveOp s op
  | .unreset =>
    match op with
    | .reset => (.live State.reset, .ok)
    | _ => (.unreset, .refused .beforeReset)

/-- A run: the operations of the list one after the other, with the results in the same order (R5, R6). -/
def runHost : List HostOp → Block → Block × List OpResult
  | [], b => (b, [])
  | op :: ops, b =>
    let r := hostOp op b
    let rest := runHost ops r.1
    (rest.1, r.2 :: rest.2)

end Sys2Proof.Machine
end

