-- ==== Sys2Proof/Safety.lean ====
section
/-! DEFINITION. The terms in which claims are made: what an operation leaves unchanged, what R15 and R130 say of the
next pc and of the faults as tables of their own, the invariant of a run, when a run has ended, and the order the host
must keep. Nothing here is called by the machine. -/

namespace Sys2Proof.Machine

/-- Every byte of memory reads as before. -/
def MemKept (s t : State) : Prop := ∀ a : Nat, memGet t.mem a = memGet s.mem a

/-- Every byte of memory outside the `n` bytes from `a` on reads as before. -/
def MemKeptOutside (a n : Nat) (s t : State) : Prop :=
  ∀ b : Nat, (b < a ∨ a + n ≤ b) → memGet t.mem b = memGet s.mem b

/-- The call stack is as before: pointer and every slot (R16). -/
def StackKept (s t : State) : Prop := t.sp = s.sp ∧ ∀ j : Fin 16, t.stack[j] = s.stack[j]

/-- Every general register but those in `changed` is as before. -/
def RegsKeptBut (changed : Reg → Prop) (s t : State) : Prop := ∀ r : Reg, ¬ changed r → t.v[r] = s.v[r]

/-- Both timers are as before (R17). -/
def TimersKept (s t : State) : Prop := t.dt = s.dt ∧ t.st = s.st

/-- The frame of an instruction that writes only general registers in `changed` (and pc): all the rest of the spec's
state is as before, and no random byte was drawn (R22). -/
def OnlyRegs (changed : Reg → Prop) (s t : State) : Prop :=
  RegsKeptBut changed s t ∧ t.i = s.i ∧ StackKept s t ∧ TimersKept s t ∧ MemKept s t ∧ t.draws = s.draws

/-- The frame of an instruction that writes nothing but pc (R22). -/
def OnlyPc (s t : State) : Prop := OnlyRegs (fun _ => False) s t

/-- The fields of the block right after `reset()`, as R160 lists them (the model's own counter is not among them). -/
def IsResetState (t : State) : Prop :=
  (∀ r : Reg, t.v[r] = 0x00) ∧ t.i = 0x0000 ∧ t.pc = 0x0200 ∧ t.sp = 0 ∧ (∀ j : Fin 16, t.stack[j] = 0x0000) ∧
    t.dt = 0x00 ∧ t.st = 0x00 ∧ ∀ a : Nat, memGet t.mem a = 0x00

/-- The table of R15: how each instruction leaves pc, over the integers. -/
def pcAfter (i : Instr) (s : State) : Nat :=
  match i with
  | .sei x kk => if s.v[x] = kk then s.pc.toNat + 4 else s.pc.toNat + 2
  | .snei x kk => if s.v[x] ≠ kk then s.pc.toNat + 4 else s.pc.toNat + 2
  | .ser x y => if s.v[x] = s.v[y] then s.pc.toNat + 4 else s.pc.toNat + 2
  | .jp nnn | .call nnn => nnn.toNat
  | .jpo nnn => s.v[(0 : Fin 16)].toNat + nnn.toNat
  | .ret => s.stack[s.sp].toNat
  | .ldi _ _ | .addi _ _ | .mov _ _ | .or _ _ | .and _ _ | .xor _ _ | .add _ _ | .sub _ _ | .shr _ _ | .subn _ _
  | .shl _ _ | .lda _ | .rnd _ _ | .gdt _ | .sdt _ | .sst _ | .adda _ | .bcd _ | .stm _ | .ldm _ => s.pc.toNat + 2

/-- The data row of R130: some address in `I`..`I + kmax` is outside the image; the fault names the smallest. -/
def rangeFault (s : State) (kmax : Nat) : Option Fault :=
  if 0xFFF < s.i.toNat + kmax then some (.addressOutOfRange (max s.i.toNat 0x1000)) else none

/-- The table of R130 and R131: an instruction's own fault in a state, before the check of the new pc. -/
def ownFault (i : Instr) (s : State) : Option Fault :=
  match i with
  | .ret => if s.sp = 0 then some .stackUnderflow else none
  | .call _ => if s.sp = 15 then some .stackOverflow else none
  | .bcd _ => rangeFault s 2
  | .stm x | .ldm x => rangeFault s x.val
  | .jp _ | .sei _ _ | .snei _ _ | .ser _ _ | .ldi _ _ | .addi _ _ | .mov _ _ | .or _ _ | .and _ _ | .xor _ _
  | .add _ _ | .sub _ _ | .shr _ _ | .subn _ _ | .shl _ _ | .lda _ | .jpo _ | .rnd _ _ | .gdt _ | .sdt _ | .sst _
  | .adda _ => none

/-- The class of a word and its low nibble and byte, as numbers (R52): the words that R58 lists as unrecognised. -/
def UnrecognisedWord (w : Word) : Prop :=
  (w.toNat / 4096 = 0x0 ∧ w.toNat ≠ 0x00EE) ∨ (w.toNat / 4096 = 0x5 ∧ w.toNat % 16 ≠ 0) ∨
    (w.toNat / 4096 = 0x8 ∧ w.toNat % 16 ∈ [0x8, 0x9, 0xA, 0xB, 0xC, 0xD, 0xF]) ∨
    w.toNat / 4096 = 0x9 ∨ w.toNat / 4096 = 0xD ∨ w.toNat / 4096 = 0xE ∨
    (w.toNat / 4096 = 0xF ∧ w.toNat % 256 ∉ [0x07, 0x15, 0x18, 0x1E, 0x33, 0x55, 0x65])

/-- The invariant of every run without raw accesses: pc inside the image (R10), memory in its canonical form, and
every live call-stack slot an address that a `CALL` was fetched from (R70). -/
def Inv (s : State) : Prop :=
  s.pc.toNat ≤ 0xFFF ∧ Memory.wf s.mem = true ∧ ∀ j : Fin 16, 0 < j → j ≤ s.sp → s.stack[j].toNat ≤ 0xFFE

/-- The invariant of the block: nothing is claimed of it before its first reset (R21). -/
def BlockInv : Block → Prop
  | .unreset => True
  | .live s => Inv s

/-- The memory of the block is in its canonical form; nothing is claimed of it before its first reset (R21). -/
def BlockMemWf : Block → Prop
  | .unreset => True
  | .live s => Memory.wf s.mem = true

/-- An operation other than the harness's raw seeding of fields (R149). -/
def notSeed : HostOp → Bool
  | .seed _ => false
  | .reset | .load _ | .step | .tick | .read _ | .write _ _ | .writeInstruction _ _ | .inspect => true

/-- A run has ended at `a`: pc is `a` and the word there is `JP a` (R164, D22; a convention of the spec). -/
def EndedAt (a : Addr12) (s : State) : Prop := s.pc.toNat = a.toNat ∧ fetchInstr s = .ok (.jp a)

/-- Where the host stands in the order of R162. -/
inductive HostPhase where
  /-- `reset()` has not been called. -/
  | unreset
  /-- `reset()` has been called and the program is to be loaded. -/
  | empty
  /-- A program is loaded; steps and ticks may come. -/
  | loaded
  deriving DecidableEq, Repr

/-- The operations the host makes in a run about which a claim is made, in the order it must keep: `reset()`, one
`load()` of at most 3584 bytes, then steps and ticks in any interleaving; a later `reset()` starts again (R161, R162). -/
def hostOrderFrom : HostPhase → List HostOp → Bool
  | _, [] => true
  | _, .reset :: ops => hostOrderFrom .empty ops
  | .empty, .load bytes :: ops => decide (bytes.length ≤ Config.maxProgram) && hostOrderFrom .loaded ops
  | .loaded, .step :: ops => hostOrderFrom .loaded ops
  | .loaded, .tick :: ops => hostOrderFrom .loaded ops
  | _, _ => false

/-- The order the host must keep, from the start (R162). -/
def HostOrder (ops : List HostOp) : Bool := hostOrderFrom .unreset ops

/-- The operations that may follow one another freely once a program is loaded: steps and ticks (R162 item 3). -/
def isRunOp : HostOp → Bool
  | .step | .tick => true
  | .reset | .load _ | .read _ | .write _ _ | .writeInstruction _ _ | .seed _ | .inspect => false

/-- A safe run: no operation of it returned a fault or was refused (R137). -/
def SafeRun (results : List OpResult) : Prop := ∀ r ∈ results, (∀ f, r ≠ .fault f) ∧ ∀ q, r ≠ .refused q

end Sys2Proof.Machine
end

