-- ==== Sys2Proof/Certificates/Slice0/Obligations.lean ====
section
/-! DEFINITION. The statements for the provers. Each docstring names the rule of spec/ it comes from and, where it rests
on a decision or a general-knowledge passage of the spec or on a choice of the model, the log entry that says so. -/

open Sys2Proof Sys2Proof.Machine

/-! ## Reset, memory port, fetch, decode -/

/-- R160, and R161's "in any state": `reset()` puts every piece of the spec's state to its reset value. -/
def Obligations.ResetState : Prop :=
  IsResetState State.reset ∧ ∀ b : Block, ∃ t, hostOp .reset b = (.live t, .ok) ∧ IsResetState t

/-- R31: `MemRead(addr, 1)` returns `mem[addr]` inside the image and changes nothing, and faults outside it. -/
def Obligations.MemReadPort : Prop :=
  ∀ (s : State) (a : Nat),
    (a ≤ 0xFFF → memRead s a = .ok (memGet s.mem a) ∧
      hostOp (.read a) (.live s) = (.live s, .byte (memGet s.mem a))) ∧
    (0xFFF < a → memRead s a = .error (.addressOutOfRange a) ∧
      hostOp (.read a) (.live s) = (.live s, .fault (.addressOutOfRange a)))

/-- R32: `MemWrite(addr, 1, b)` writes one byte inside the image and nothing else, and faults outside it. -/
def Obligations.MemWritePort : Prop :=
  ∀ (s : State) (a : Nat) (b : Byte),
    (a ≤ 0xFFF → ∃ t, memWrite s a b = .ok t ∧ (Memory.wf s.mem = true → memGet t.mem a = b) ∧
      MemKeptOutside a 1 s t ∧ { t with mem := s.mem } = s) ∧
    (0xFFF < a → memWrite s a b = .error (.addressOutOfRange a))

/-- R33 with D4 (entry 3): `writeInstruction` writes the high byte, then the low byte, or faults with
`AddressOutOfRange` and writes neither; the address the fault carries is D7 (entry 4). -/
def Obligations.WriteInstructionBigEndian : Prop :=
  ∀ (s : State) (a : Nat) (w : Word),
    (a + 1 ≤ 0xFFF → ∃ t, writeInstruction s a w = .ok t ∧ MemKeptOutside a 2 s t ∧ { t with mem := s.mem } = s ∧
      (Memory.wf s.mem = true →
        (memGet t.mem a).toNat = w.toNat / 256 ∧ (memGet t.mem (a + 1)).toNat = w.toNat % 256)) ∧
    (0xFFF < a + 1 → writeInstruction s a w = .error (.addressOutOfRange (max a 0x1000)) ∧
      hostOp (.writeInstruction a w) (.live s) = (.live s, .fault (.addressOutOfRange (max a 0x1000))))

/-- R34 (payload D7, entry 4): the fetched word is big-endian, and a step that cannot fetch faults. -/
def Obligations.FetchBigEndian : Prop :=
  ∀ s : State,
    (s.pc.toNat ≤ 0xFFE → ∃ w, fetchWord s = .ok w ∧
      w.toNat = (memGet s.mem s.pc.toNat).toNat * 256 + (memGet s.mem (s.pc.toNat + 1)).toNat) ∧
    (s.pc.toNat = 0xFFF → step s = .fault (.addressOutOfRange 0x1000)) ∧
    (0xFFF < s.pc.toNat → step s = .fault (.addressOutOfRange s.pc.toNat))

/-- R56 (values GK2, entry 1): a few words written out from the opcode map decode to their instructions. -/
def Obligations.DecodeSampleWords : Prop :=
  decodeWord 0x00EE = .ok .ret ∧ decodeWord 0x1ABC = .ok (.jp 0xABC) ∧ decodeWord 0x3A07 = .ok (.sei 0xA 0x07) ∧
    decodeWord 0x5AB0 = .ok (.ser 0xA 0xB) ∧ decodeWord 0x6F12 = .ok (.ldi 0xF 0x12) ∧
    decodeWord 0x8AB5 = .ok (.sub 0xA 0xB) ∧ decodeWord 0xA123 = .ok (.lda 0x123) ∧
    decodeWord 0xC5F0 = .ok (.rnd 0x5 0xF0) ∧ decodeWord 0xF115 = .ok (.sdt 0x1) ∧
    decodeWord 0xFE55 = .ok (.stm 0xE) ∧ (decodeWord 0x0000).isOk = false ∧ (decodeWord 0x9AB0).isOk = false

/-- R52, R53, R56: decoding the word of an instruction gives the instruction back, every operand at every value. -/
def Obligations.DecodeOfEncode : Prop := ∀ i : Instr, decodeWord (encode i) = .ok i

/-- R52, R53, R55: a word that decodes is the word of the instruction it decodes to, so no bit of it is dropped. -/
def Obligations.EncodeOfDecode : Prop := ∀ (w : Word) (i : Instr), decodeWord w = .ok i → encode i = w

/-- R58: exactly the listed words are unrecognised (the width of the match is D2, D3: entry 2). -/
def Obligations.UnrecognisedWords : Prop :=
  ∀ w : Word, (∃ r, decodeWord w = .error r) ↔ UnrecognisedWord w

/-- R55 against R56: the decoder's function and the opcode map's mask and match columns agree on every word, and the
matching row is the row of the decoded instruction's mnemonic. -/
def Obligations.DecoderMeetsOpcodeMap : Prop :=
  ∀ w : Word, (wellFormedWord w = true ↔ ∃ i, decodeWord w = .ok i) ∧
    ∀ i, decodeWord w = .ok i → ∀ r ∈ opcodeRows, (r.fits w = true ↔ r.mnemonic = i.mnemonic)

/-- R50 steps 1 to 4: when the two bytes at pc decode to an instruction, a step is that instruction executed at that
state; nothing is put around it. -/
def Obligations.StepRunsDecoded : Prop :=
  ∀ (s : State) (i : Instr), s.pc.toNat ≤ 0xFFE →
    decode [memGet s.mem s.pc.toNat, memGet s.mem (s.pc.toNat + 1)] = .ok (i, []) → step s = exec i s

/-- R132: an unrecognised word is reported with the word and the address it was fetched from, which is the value of pc
before the step and after it. -/
def Obligations.StepReportsUnrecognised : Prop :=
  ∀ s : State, s.pc.toNat ≤ 0xFFE →
    (∃ r, decodeWord (memGet s.mem s.pc.toNat ++ memGet s.mem (s.pc.toNat + 1)) = .error r) →
      step s = .fault (.unrecognizedInstruction
        (memGet s.mem s.pc.toNat ++ memGet s.mem (s.pc.toNat + 1)) s.pc) ∧
      hostOp .step (.live s) = (.live s, .fault (.unrecognizedInstruction
        (memGet s.mem s.pc.toNat ++ memGet s.mem (s.pc.toNat + 1)) s.pc))

/-! ## Control transfer and skips -/

/-- R71: `JP` sets pc to `nnn` and changes nothing else; a jump to itself leaves the whole state as it was. -/
def Obligations.JpResult : Prop :=
  ∀ (nnn : Addr12) (s : State),
    (∃ t, exec (.jp nnn) s = .next t ∧ t.pc.toNat = nnn.toNat ∧ OnlyPc s t) ∧
    (s.pc.toNat = nnn.toNat → exec (.jp nnn) s = .next s)

/-- R73: `JPO` jumps to `V[0] + nnn`, not truncated (D30, entry 16). -/
def Obligations.JpoResult : Prop :=
  ∀ (nnn : Addr12) (s : State),
    (s.v[(0 : Fin 16)].toNat + nnn.toNat ≤ 0xFFF →
      ∃ t, exec (.jpo nnn) s = .next t ∧ t.pc.toNat = s.v[(0 : Fin 16)].toNat + nnn.toNat ∧ OnlyPc s t) ∧
    (0xFFF < s.v[(0 : Fin 16)].toNat + nnn.toNat →
      exec (.jpo nnn) s = .fault (.addressOutOfRange (s.v[(0 : Fin 16)].toNat + nnn.toNat)))

/-- R72: `CALL` pushes its own address in the slot above the old top and jumps; at depth 15 it faults (D8, entry 6;
D9, entry 7). -/
def Obligations.CallResult : Prop :=
  ∀ (nnn : Addr12) (s : State),
    (s.sp ≠ 15 → ∃ t, exec (.call nnn) s = .next t ∧ t.pc.toNat = nnn.toNat ∧ t.sp.val = s.sp.val + 1 ∧
      t.stack[t.sp] = s.pc ∧ (∀ j : Fin 16, j ≠ t.sp → t.stack[j] = s.stack[j]) ∧
      RegsKeptBut (fun _ => False) s t ∧ t.i = s.i ∧ TimersKept s t ∧ MemKept s t ∧ t.draws = s.draws) ∧
    (s.sp = 15 → exec (.call nnn) s = .fault .stackOverflow)

/-- R70: `RET` jumps to the popped address exactly and leaves the slot as it was; with an empty stack it faults. The
clause on a popped address outside the image is step 5 of R50 (D6, entry 5). -/
def Obligations.RetResult : Prop :=
  ∀ s : State,
    (s.sp ≠ 0 → s.stack[s.sp].toNat ≤ 0xFFF →
      ∃ t, exec .ret s = .next t ∧ t.pc = s.stack[s.sp] ∧ t.sp.val + 1 = s.sp.val ∧
        (∀ j : Fin 16, t.stack[j] = s.stack[j]) ∧
        RegsKeptBut (fun _ => False) s t ∧ t.i = s.i ∧ TimersKept s t ∧ MemKept s t ∧ t.draws = s.draws) ∧
    (s.sp = 0 → exec .ret s = .fault .stackUnderflow) ∧
    (s.sp ≠ 0 → 0xFFF < s.stack[s.sp].toNat →
      exec .ret s = .fault (.addressOutOfRange s.stack[s.sp].toNat))

/-- R166 and the source's §8 property in S7: a `RET` straight after a `CALL` lands on the `CALL` itself and leaves
everything but the dead slot, the one above the stack pointer, as it was before the call. -/
def Obligations.CallThenRet : Prop :=
  ∀ (nnn : Addr12) (s : State), s.sp ≠ 15 → s.pc.toNat ≤ 0xFFF →
    ∃ t u, exec (.call nnn) s = .next t ∧ exec .ret t = .next u ∧ u.pc = s.pc ∧ u.sp = s.sp ∧
      (∀ j : Fin 16, j.val ≠ s.sp.val + 1 → u.stack[j] = s.stack[j]) ∧ { u with stack := s.stack } = s

/-- R80: `SEI` advances pc by 4 when the register equals the immediate, else by 2, and writes nothing else. -/
def Obligations.SeiResult : Prop :=
  ∀ (x : Reg) (kk : Byte) (s : State),
    (s.v[x] = kk → s.pc.toNat + 4 ≤ 0xFFF →
      ∃ t, exec (.sei x kk) s = .next t ∧ t.pc.toNat = s.pc.toNat + 4 ∧ OnlyPc s t) ∧
    (s.v[x] ≠ kk → s.pc.toNat + 2 ≤ 0xFFF →
      ∃ t, exec (.sei x kk) s = .next t ∧ t.pc.toNat = s.pc.toNat + 2 ∧ OnlyPc s t)

/-- R81: `SNEI` advances pc by 4 when the register differs from the immediate, else by 2, and writes nothing else. -/
def Obligations.SneiResult : Prop :=
  ∀ (x : Reg) (kk : Byte) (s : State),
    (s.v[x] ≠ kk → s.pc.toNat + 4 ≤ 0xFFF →
      ∃ t, exec (.snei x kk) s = .next t ∧ t.pc.toNat = s.pc.toNat + 4 ∧ OnlyPc s t) ∧
    (s.v[x] = kk → s.pc.toNat + 2 ≤ 0xFFF →
      ∃ t, exec (.snei x kk) s = .next t ∧ t.pc.toNat = s.pc.toNat + 2 ∧ OnlyPc s t)

/-- R82: `SER` advances pc by 4 when the two registers are equal, else by 2, and writes nothing else. -/
def Obligations.SerResult : Prop :=
  ∀ (x y : Reg) (s : State),
    (s.v[x] = s.v[y] → s.pc.toNat + 4 ≤ 0xFFF →
      ∃ t, exec (.ser x y) s = .next t ∧ t.pc.toNat = s.pc.toNat + 4 ∧ OnlyPc s t) ∧
    (s.v[x] ≠ s.v[y] → s.pc.toNat + 2 ≤ 0xFFF →
      ∃ t, exec (.ser x y) s = .next t ∧ t.pc.toNat = s.pc.toNat + 2 ∧ OnlyPc s t)

/-! ## Register-immediate, ALU, address register, random, timers -/

/-- R85: `LDI` writes the immediate to `V[x]` and nothing else. -/
def Obligations.LdiResult : Prop :=
  ∀ (x : Reg) (kk : Byte) (s : State), s.pc.toNat + 2 ≤ 0xFFF →
    ∃ t, exec (.ldi x kk) s = .next t ∧ t.pc.toNat = s.pc.toNat + 2 ∧ t.v[x] = kk ∧ OnlyRegs (· = x) s t

/-- R86: `ADDI` adds modulo 256 and writes no flag. -/
def Obligations.AddiResult : Prop :=
  ∀ (x : Reg) (kk : Byte) (s : State), s.pc.toNat + 2 ≤ 0xFFF →
    ∃ t, exec (.addi x kk) s = .next t ∧ t.pc.toNat = s.pc.toNat + 2 ∧
      t.v[x].toNat = (s.v[x].toNat + kk.toNat) % 256 ∧ OnlyRegs (· = x) s t

/-- R91: `MOV` copies `V[y]` to `V[x]` and writes nothing else. -/
def Obligations.MovResult : Prop :=
  ∀ (x y : Reg) (s : State), s.pc.toNat + 2 ≤ 0xFFF →
    ∃ t, exec (.mov x y) s = .next t ∧ t.pc.toNat = s.pc.toNat + 2 ∧ t.v[x] = s.v[y] ∧ OnlyRegs (· = x) s t

/-- R92, R93, R94: `OR`, `AND` and `XOR` combine the two registers bit by bit, write `V[x]` and no flag. -/
def Obligations.BitwiseResults : Prop :=
  ∀ (x y : Reg) (s : State), s.pc.toNat + 2 ≤ 0xFFF →
    (∃ t, exec (.or x y) s = .next t ∧ t.pc.toNat = s.pc.toNat + 2 ∧ OnlyRegs (· = x) s t ∧
      ∀ k < 8, t.v[x].getLsbD k = (s.v[x].getLsbD k || s.v[y].getLsbD k)) ∧
    (∃ t, exec (.and x y) s = .next t ∧ t.pc.toNat = s.pc.toNat + 2 ∧ OnlyRegs (· = x) s t ∧
      ∀ k < 8, t.v[x].getLsbD k = (s.v[x].getLsbD k && s.v[y].getLsbD k)) ∧
    (∃ t, exec (.xor x y) s = .next t ∧ t.pc.toNat = s.pc.toNat + 2 ∧ OnlyRegs (· = x) s t ∧
      ∀ k < 8, t.v[x].getLsbD k = (s.v[x].getLsbD k != s.v[y].getLsbD k))

/-- R95: `ADD` writes the sum modulo 256 and then the carry to `VF`; with `x = 15` the carry is what stays (D10,
entry 8). -/
def Obligations.AddResult : Prop :=
  ∀ (x y : Reg) (s : State), s.pc.toNat + 2 ≤ 0xFFF →
    ∃ t, exec (.add x y) s = .next t ∧ t.pc.toNat = s.pc.toNat + 2 ∧ OnlyRegs (fun r => r = x ∨ r = 15) s t ∧
      (x ≠ 15 → t.v[x].toNat = (s.v[x].toNat + s.v[y].toNat) % 256) ∧
      t.v[(15 : Fin 16)].toNat = if s.v[x].toNat + s.v[y].toNat > 255 then 1 else 0

/-- R96: `SUB` writes to `VF` whether `V[x]` is strictly greater, and then the difference of the registers as they then
stand; the clauses with `x = 15` or `y = 15` are D10 (entry 8). -/
def Obligations.SubResult : Prop :=
  ∀ (x y : Reg) (s : State), s.pc.toNat + 2 ≤ 0xFFF →
    ∃ t, exec (.sub x y) s = .next t ∧ t.pc.toNat = s.pc.toNat + 2 ∧ OnlyRegs (fun r => r = x ∨ r = 15) s t ∧
      (x ≠ 15 → t.v[(15 : Fin 16)].toNat = if s.v[x].toNat > s.v[y].toNat then 1 else 0) ∧
      (x ≠ 15 → y ≠ 15 → t.v[x].toNat = (256 + s.v[x].toNat - s.v[y].toNat) % 256) ∧
      (x ≠ 15 → y = 15 →
        t.v[x].toNat = (256 + s.v[x].toNat - (if s.v[x].toNat > s.v[y].toNat then 1 else 0)) % 256) ∧
      (x = 15 → y ≠ 15 →
        t.v[x].toNat = (256 + (if s.v[x].toNat > s.v[y].toNat then 1 else 0) - s.v[y].toNat) % 256) ∧
      (x = 15 → y = 15 → t.v[x].toNat = 0)

/-- R98: `SUBN` writes to `VF` whether `V[y]` is strictly greater, and then the reversed difference of the registers as
they then stand; the clauses with `x = 15` or `y = 15` are D10 (entry 8). -/
def Obligations.SubnResult : Prop :=
  ∀ (x y : Reg) (s : State), s.pc.toNat + 2 ≤ 0xFFF →
    ∃ t, exec (.subn x y) s = .next t ∧ t.pc.toNat = s.pc.toNat + 2 ∧ OnlyRegs (fun r => r = x ∨ r = 15) s t ∧
      (x ≠ 15 → t.v[(15 : Fin 16)].toNat = if s.v[y].toNat > s.v[x].toNat then 1 else 0) ∧
      (x ≠ 15 → y ≠ 15 → t.v[x].toNat = (256 + s.v[y].toNat - s.v[x].toNat) % 256) ∧
      (x ≠ 15 → y = 15 →
        t.v[x].toNat = (256 + (if s.v[y].toNat > s.v[x].toNat then 1 else 0) - s.v[x].toNat) % 256) ∧
      (x = 15 → y ≠ 15 →
        t.v[x].toNat = (256 + s.v[y].toNat - (if s.v[y].toNat > s.v[x].toNat then 1 else 0)) % 256) ∧
      (x = 15 → y = 15 → t.v[x].toNat = 0)

/-- R97: `SHR` writes bit 0 to `VF` and halves `V[x]`, whatever `y` (D11, entry 9); with `x = 15` the result is 0 (D10,
entry 8). -/
def Obligations.ShrResult : Prop :=
  ∀ (x y : Reg) (s : State), s.pc.toNat + 2 ≤ 0xFFF →
    ∃ t, exec (.shr x y) s = .next t ∧ t.pc.toNat = s.pc.toNat + 2 ∧ OnlyRegs (fun r => r = x ∨ r = 15) s t ∧
      (x ≠ 15 → t.v[x].toNat = s.v[x].toNat / 2 ∧ t.v[(15 : Fin 16)].toNat = s.v[x].toNat % 2) ∧
      (x = 15 → t.v[x].toNat = 0)

/-- R99: `SHL` writes bit 7 to `VF` and doubles `V[x]` modulo 256, whatever `y` (D11, entry 9); with `x = 15` the
result is 2 or 0 (D10, entry 8). -/
def Obligations.ShlResult : Prop :=
  ∀ (x y : Reg) (s : State), s.pc.toNat + 2 ≤ 0xFFF →
    ∃ t, exec (.shl x y) s = .next t ∧ t.pc.toNat = s.pc.toNat + 2 ∧ OnlyRegs (fun r => r = x ∨ r = 15) s t ∧
      (x ≠ 15 → t.v[x].toNat = s.v[x].toNat * 2 % 256 ∧ t.v[(15 : Fin 16)].toNat = s.v[x].toNat / 128) ∧
      (x = 15 → t.v[x].toNat = if s.v[x].toNat ≥ 0x80 then 2 else 0)

/-- R105: `LDA` writes the zero-extended address to `I` and nothing else. -/
def Obligations.LdaResult : Prop :=
  ∀ (nnn : Addr12) (s : State), s.pc.toNat + 2 ≤ 0xFFF →
    ∃ t, exec (.lda nnn) s = .next t ∧ t.pc.toNat = s.pc.toNat + 2 ∧ t.i.toNat = nnn.toNat ∧
      OnlyPc s { t with i := s.i }

/-- R106: `ADDA` adds `V[x]` to `I` modulo 65536 (D12, entry 10) and writes no flag. -/
def Obligations.AddaResult : Prop :=
  ∀ (x : Reg) (s : State), s.pc.toNat + 2 ≤ 0xFFF →
    ∃ t, exec (.adda x) s = .next t ∧ t.pc.toNat = s.pc.toNat + 2 ∧
      t.i.toNat = (s.i.toNat + s.v[x].toNat) % 65536 ∧ OnlyPc s { t with i := s.i }

/-- R110: `RND` writes the next drawn byte ANDed with the mask, whatever byte is drawn (a free value, entry 15); the
bits outside the mask are 0, and one draw is counted. -/
def Obligations.RndResult : Prop :=
  ∀ (x : Reg) (kk : Byte) (s : State), s.pc.toNat + 2 ≤ 0xFFF →
    ∃ t, exec (.rnd x kk) s = .next t ∧ t.pc.toNat = s.pc.toNat + 2 ∧
      t.v[x] = Config.randomByte s.draws &&& kk ∧ (∀ k < 8, kk.getLsbD k = false → t.v[x].getLsbD k = false) ∧
      t.draws = s.draws + 1 ∧ OnlyRegs (· = x) s { t with draws := s.draws }

/-- R113: `GDT` copies `DT` to `V[x]` and leaves `DT` as it was. -/
def Obligations.GdtResult : Prop :=
  ∀ (x : Reg) (s : State), s.pc.toNat + 2 ≤ 0xFFF →
    ∃ t, exec (.gdt x) s = .next t ∧ t.pc.toNat = s.pc.toNat + 2 ∧ t.v[x] = s.dt ∧ OnlyRegs (· = x) s t

/-- R114, R115: `SDT` and `SST` copy `V[x]` to their timer and change nothing else. -/
def Obligations.TimerWriteResults : Prop :=
  ∀ (x : Reg) (s : State), s.pc.toNat + 2 ≤ 0xFFF →
    (∃ t, exec (.sdt x) s = .next t ∧ t.pc.toNat = s.pc.toNat + 2 ∧ t.dt = s.v[x] ∧ OnlyPc s { t with dt := s.dt }) ∧
    (∃ t, exec (.sst x) s = .next t ∧ t.pc.toNat = s.pc.toNat + 2 ∧ t.st = s.v[x] ∧ OnlyPc s { t with st := s.st })

/-! ## Memory instructions -/

/-- R118: `BCD` writes the three decimal digits at `I`, `I + 1`, `I + 2` and no other byte and no register. -/
def Obligations.BcdResult : Prop :=
  ∀ (x : Reg) (s : State), s.i.toNat + 2 ≤ 0xFFF → s.pc.toNat + 2 ≤ 0xFFF →
    ∃ t, exec (.bcd x) s = .next t ∧ t.pc.toNat = s.pc.toNat + 2 ∧
      MemKeptOutside s.i.toNat 3 s t ∧ OnlyPc s { t with mem := s.mem } ∧
      (Memory.wf s.mem = true →
        (memGet t.mem s.i.toNat).toNat = s.v[x].toNat / 100 ∧
        (memGet t.mem (s.i.toNat + 1)).toNat = s.v[x].toNat / 10 % 10 ∧
        (memGet t.mem (s.i.toNat + 2)).toNat = s.v[x].toNat % 10)

/-- R119: `STM` writes `V[0]`, …, `V[x]` at `I`, …, `I + x` and no other byte and no register, `I` included. -/
def Obligations.StmResult : Prop :=
  ∀ (x : Reg) (s : State), s.i.toNat + x.val ≤ 0xFFF → s.pc.toNat + 2 ≤ 0xFFF →
    ∃ t, exec (.stm x) s = .next t ∧ t.pc.toNat = s.pc.toNat + 2 ∧
      MemKeptOutside s.i.toNat (x.val + 1) s t ∧ OnlyPc s { t with mem := s.mem } ∧
      (Memory.wf s.mem = true → ∀ k : Reg, k ≤ x → memGet t.mem (s.i.toNat + k.val) = s.v[k])

/-- R120: `LDM` loads `V[0]`, …, `V[x]` from `I`, …, `I + x`; the registers above `x`, `I` and memory are unchanged. -/
def Obligations.LdmResult : Prop :=
  ∀ (x : Reg) (s : State), s.i.toNat + x.val ≤ 0xFFF → s.pc.toNat + 2 ≤ 0xFFF →
    ∃ t, exec (.ldm x) s = .next t ∧ t.pc.toNat = s.pc.toNat + 2 ∧
      (∀ k : Reg, k ≤ x → t.v[k] = memGet s.mem (s.i.toNat + k.val)) ∧ OnlyRegs (· ≤ x) s t

/-- R121: what `STM Vx` stored, a later `LDM Vx` with the same `I` and memory gives back, whatever the registers held
just before it. -/
def Obligations.StmThenLdm : Prop :=
  ∀ (x : Reg) (s u : State), Memory.wf s.mem = true → s.i.toNat + x.val ≤ 0xFFF → s.pc.toNat + 2 ≤ 0xFFF →
    u.i = s.i → u.pc.toNat + 2 ≤ 0xFFF →
    ∃ t w, exec (.stm x) s = .next t ∧ t.i = s.i ∧ exec (.ldm x) { u with mem := t.mem } = .next w ∧ w.i = s.i ∧
      ∀ k : Reg, k ≤ x → w.v[k] = s.v[k]

/-- R43: the bytes that `STM` stored are what the very next fetch reads, where they lie at the new pc. -/
def Obligations.StoreVisibleToFetch : Prop :=
  ∀ (x j k : Reg) (s t : State), Memory.wf s.mem = true → exec (.stm x) s = .next t →
    k.val = j.val + 1 → k ≤ x → t.pc.toNat = s.i.toNat + j.val → fetchWord t = .ok (s.v[j] ++ s.v[k])

/-- R39 (payload and whole-range check D13, entry 11): a memory instruction whose range leaves the image faults with
the smallest address outside it, whatever pc is (order D5, entry 4). -/
def Obligations.DataRangeFaults : Prop :=
  ∀ (x : Reg) (s : State),
    (0xFFF < s.i.toNat + 2 → exec (.bcd x) s = .fault (.addressOutOfRange (max s.i.toNat 0x1000))) ∧
    (0xFFF < s.i.toNat + x.val → exec (.stm x) s = .fault (.addressOutOfRange (max s.i.toNat 0x1000))) ∧
    (0xFFF < s.i.toNat + x.val → exec (.ldm x) s = .fault (.addressOutOfRange (max s.i.toNat 0x1000)))

/-! ## Whole-machine rules -/

/-- R15: the table of how each instruction leaves pc; `JPO` above `0xFFF` faults. -/
def Obligations.PcTable : Prop :=
  (∀ (i : Instr) (s t : State), exec i s = .next t → t.pc.toNat = pcAfter i s) ∧
    ∀ (nnn : Addr12) (s : State), 0xFFF < pcAfter (.jpo nnn) s → ∃ f, exec (.jpo nnn) s = .fault f

/-- R130, R131, R134 (order D5, entry 4; the bound on the new pc D6, entry 5): every instruction faults in exactly the
states and with exactly the fault of the tables, its own fault first, and else completes at the pc of R15. -/
def Obligations.FaultsExactly : Prop :=
  ∀ (i : Instr) (s : State),
    (∀ f, ownFault i s = some f → exec i s = .fault f) ∧
    (ownFault i s = none → 0xFFF < pcAfter i s → exec i s = .fault (.addressOutOfRange (pcAfter i s))) ∧
    (ownFault i s = none → pcAfter i s ≤ 0xFFF → ∃ t, exec i s = .next t ∧ t.pc.toNat = pcAfter i s)

/-- R130 for the step, row by row (payloads D7, entry 4): what each fault of a step says of the state it was raised in.
`AddressOutOfRange` comes from the fetch, from the data range of a memory instruction or from the new pc. -/
def Obligations.StepFaultCauses : Prop :=
  ∀ (s : State) (f : Fault), step s = .fault f →
    (∀ w a, f = .unrecognizedInstruction w a → a = s.pc ∧ s.pc.toNat ≤ 0xFFE ∧
      w = memGet s.mem s.pc.toNat ++ memGet s.mem (s.pc.toNat + 1) ∧ UnrecognisedWord w) ∧
    (f = .stackUnderflow → s.sp = 0 ∧ fetchInstr s = .ok .ret) ∧
    (f = .stackOverflow → s.sp = 15 ∧ ∃ nnn, fetchInstr s = .ok (.call nnn)) ∧
    (∀ a, f = .addressOutOfRange a →
      (0xFFE < s.pc.toNat ∧ a = max s.pc.toNat 0x1000) ∨
      ∃ i, fetchInstr s = .ok i ∧
        ((∃ x, ((i = .bcd x ∧ 0xFFF < s.i.toNat + 2) ∨ ((i = .stm x ∨ i = .ldm x) ∧ 0xFFF < s.i.toNat + x.val)) ∧
            a = max s.i.toNat 0x1000) ∨
          (ownFault i s = none ∧ 0xFFF < pcAfter i s ∧ a = pcAfter i s)))

/-- R143: `ProgramTooLarge` is never a result of `step()`. -/
def Obligations.StepNeverProgramTooLarge : Prop := ∀ s : State, step s ≠ .fault .programTooLarge

/-- R149: every `step()` from any state, reachable or not, answers a next state or a fault; no instruction is
refused. -/
def Obligations.StepNeverRefused : Prop := ∀ (s : State) (r : Refusal), step s ≠ .refused r

/-- R138 (derived in the spec): a faulting state faults in the same way for ever, whatever ticks come between:
in every sequence of steps and ticks each step answers that fault with that payload and each tick answers `Ok`. -/
def Obligations.FaultPersists : Prop :=
  ∀ (s : State) (f : Fault), step s = .fault f →
    ∀ ops : List HostOp, ops.all isRunOp = true →
      (runHost ops (.live s)).2 = ops.map fun op => if op = .step then .fault f else .ok

/-- R135 (D4, entry 3): an operation that faults leaves the block exactly as it was. -/
def Obligations.FaultLeavesBlock : Prop :=
  ∀ (op : HostOp) (b : Block) (f : Fault), (hostOp op b).2 = .fault f → (hostOp op b).1 = b

/-- R12: an instruction changes `VF` only as one of the five flag writers or because its destination is `VF`; with
another destination a flag writer leaves 0 or 1 there. -/
def Obligations.FlagRegisterWriters : Prop :=
  ∀ (i : Instr) (s t : State), exec i s = .next t →
    (t.v[(15 : Fin 16)] ≠ s.v[(15 : Fin 16)] →
      (∃ x y, i = .add x y ∨ i = .sub x y ∨ i = .subn x y ∨ i = .shr x y ∨ i = .shl x y) ∨
      (∃ kk, i = .ldi 15 kk ∨ i = .addi 15 kk ∨ i = .rnd 15 kk) ∨
      (∃ y, i = .mov 15 y ∨ i = .or 15 y ∨ i = .and 15 y ∨ i = .xor 15 y) ∨ i = .gdt 15 ∨ i = .ldm 15) ∧
    (∀ x y, x ≠ 15 → (i = .add x y ∨ i = .sub x y ∨ i = .subn x y ∨ i = .shr x y ∨ i = .shl x y) →
      t.v[(15 : Fin 16)] = 0x00 ∨ t.v[(15 : Fin 16)] = 0x01)

/-- R16: only `CALL` and `RET` touch the call stack, and slot 0 is never written and never read. -/
def Obligations.StackOwners : Prop :=
  ∀ (i : Instr) (s t : State), exec i s = .next t →
    ((∀ nnn, i ≠ .call nnn) → i ≠ .ret → StackKept s t) ∧ t.stack[(0 : Fin 16)] = s.stack[(0 : Fin 16)] ∧
    ∀ w : Word, exec i { s with stack := s.stack.set 0 w } = .next { t with stack := t.stack.set 0 w }

/-- R17: `DT` is written by `SDT` and read by `GDT` alone, `ST` is written by `SST` and read by no instruction, and
only `tick()` counts them down. That a single `tick()` lowers each timer that is not 0 and touches nothing else is R146,
from the spec's general knowledge (GK3, D15): the model's entry 13, marked PRESUMED. By how much is TickResult's
matter. -/
def Obligations.TimerOwners : Prop :=
  (∀ (i : Instr) (s t : State), exec i s = .next t →
    (∀ x, i = .sdt x → t.dt = s.v[x]) ∧ ((∀ x, i ≠ .sdt x) → t.dt = s.dt) ∧
    (∀ x, i = .sst x → t.st = s.v[x]) ∧ ((∀ x, i ≠ .sst x) → t.st = s.st) ∧
    (∀ x, i = .gdt x → t.v[x] = s.dt) ∧
    (∀ b : Byte, (∀ x, i ≠ .gdt x) →
      ∃ d, exec i { s with dt := b } = .next { t with dt := d }) ∧
    (∀ b : Byte, ∃ d, exec i { s with st := b } = .next { t with st := d })) ∧
  ∀ s : State, { tick s with dt := s.dt, st := s.st } = s ∧
    (s.dt ≠ 0 → (tick s).dt.toNat < s.dt.toNat) ∧ (s.st ≠ 0 → (tick s).st.toNat < s.st.toNat)

/-- R111: randomness enters by `RND` alone: every other instruction leaves the draws alone and answers the same
whatever number of bytes has been drawn (the counter is the model's own, entry 15). -/
def Obligations.RandomnessOnlyInRnd : Prop :=
  ∀ (i : Instr) (s t : State), (∀ x kk, i ≠ .rnd x kk) → exec i s = .next t →
    t.draws = s.draws ∧ ∀ n : Nat, exec i { s with draws := n } = .next { t with draws := n }

/-! ## Operations of the block, runs, invariants -/

/-- R146 (what one tick does is GK3, D15: entry 13): each timer goes down by one and stops at zero, and nothing else
changes. -/
def Obligations.TickResult : Prop :=
  ∀ s : State, ∃ t, hostOp .tick (.live s) = (.live t, .ok) ∧ t.dt.toNat = s.dt.toNat - 1 ∧
    t.st.toNat = s.st.toNat - 1 ∧ { t with dt := s.dt, st := s.st } = s

/-- R163 (the length is that of the list, entry 21): `load` copies the bytes from `0x200` on and touches nothing else,
or rejects a program over 3584 bytes before any copy. -/
def Obligations.LoadResult : Prop :=
  ∀ (s : State) (bytes : List Byte),
    (bytes.length ≤ 3584 → ∃ t, hostOp (.load bytes) (.live s) = (.live t, .ok) ∧
      MemKeptOutside 0x200 bytes.length s t ∧ { t with mem := s.mem } = s ∧
      (Memory.wf s.mem = true → ∀ (k : Nat) (hk : k < bytes.length), memGet t.mem (0x200 + k) = bytes[k])) ∧
    (3584 < bytes.length → hostOp (.load bytes) (.live s) = (.live s, .fault .programTooLarge))

/-- Before the first `reset()` every other operation is refused and changes nothing. For `step()` and `tick()` this is
R21 (D18); for `load`, the memory port and raw access it is THE MODEL'S CHOICE (entry 19, DESIGN CHOICE). -/
def Obligations.BeforeResetRefused : Prop :=
  ∀ op : HostOp, op ≠ .reset → hostOp op .unreset = (.unreset, .refused .beforeReset)

/-- The invariant `Inv` (R10, R70, and the model's canonical memory, entry 18) holds right after reset. -/
def Obligations.InvAtReset : Prop := Inv State.reset

/-- The invariant `Inv` (R10, R70, and the model's canonical memory, entry 18) is kept by every step from every state
that has it. -/
def Obligations.StepKeepsInv : Prop := ∀ s t : State, Inv s → step s = .next t → Inv t

/-- R5, R6: every sequence of operations without raw seeding keeps the block's invariant, whatever the tick schedule;
and every sequence at all, raw seeding included, keeps the canonical form of memory (the model's, entries 18 and 25). -/
def Obligations.RunsKeepInv : Prop :=
  (∀ (ops : List HostOp) (b : Block), ops.all notSeed = true → BlockInv b → BlockInv (runHost ops b).1) ∧
    ∀ (ops : List HostOp) (b : Block), BlockMemWf b → BlockMemWf (runHost ops b).1

/-- R70: in a state with the invariant, whose stack slots were pushed by `CALL`, `RET` can only underflow. -/
def Obligations.RetOnlyUnderflows : Prop :=
  ∀ (s : State) (f : Fault), Inv s → exec .ret s = .fault f → f = .stackUnderflow

/-- R164 (the convention D22, entry 23): once a run has ended, every sequence of steps and ticks is fault-free and
changes nothing but the timers. -/
def Obligations.EndedRunStaysEnded : Prop :=
  ∀ (a : Addr12) (s : State) (ops : List HostOp), EndedAt a s → ops.all isRunOp = true →
    ∃ t, (runHost ops (.live s)).1 = .live t ∧ SafeRun (runHost ops (.live s)).2 ∧ EndedAt a t ∧
      { t with dt := s.dt, st := s.st } = s

/-- R162, R163: after the host's boot sequence the machine stands at `0x200` with the program there, zeros elsewhere
and every register at its reset value. -/
def Obligations.BootState : Prop :=
  ∀ bytes : List Byte, bytes.length ≤ 3584 →
    ∃ t, runHost [.reset, .load bytes] .unreset = (.live t, [.ok, .ok]) ∧
      (∀ (k : Nat) (hk : k < bytes.length), memGet t.mem (0x200 + k) = bytes[k]) ∧
      (∀ a, a < 0x200 ∨ 0x200 + bytes.length ≤ a → memGet t.mem a = 0x00) ∧ IsResetState { t with mem := [] }
end

