-- ==== Sys2Proof/Laws/Decode.lean ====
section
/-! SUPPORT. Words as numbers, their fields as digits of that number, and the fields of a word laid out in each format
of 30_encoding.md R53: they are the ones it was built from. -/

namespace Sys2Proof

theorem append_toNat {m n : Nat} (a : BitVec m) (b : BitVec n) :
    (a ++ b).toNat = a.toNat * 2 ^ n + b.toNat := by
  rw [BitVec.toNat_append, ← Nat.shiftLeft_add_eq_or_of_lt b.isLt, Nat.shiftLeft_eq]

theorem wordA_toNat (c : Nibble) (nnn : Addr12) : (wordA c nnn).toNat = c.toNat * 4096 + nnn.toNat :=
  append_toNat c nnn

theorem wordI_toNat (c : Nibble) (x : Reg) (kk : Byte) :
    (wordI c x kk).toNat = c.toNat * 4096 + x.val * 256 + kk.toNat := by
  have h1 := append_toNat c (BitVec.ofFin x : Nibble)
  have h2 := append_toNat (c ++ (BitVec.ofFin x : Nibble)) kk
  have h3 : (BitVec.ofFin x : Nibble).toNat = x.val := rfl
  refine h2.trans ?_
  rw [h1, h3]
  omega

theorem wordR_toNat (c : Nibble) (x y : Reg) (n : Nibble) :
    (wordR c x y n).toNat = c.toNat * 4096 + x.val * 256 + y.val * 16 + n.toNat := by
  have h1 := append_toNat c (BitVec.ofFin x : Nibble)
  have h2 := append_toNat (c ++ (BitVec.ofFin x : Nibble)) (BitVec.ofFin y : Nibble)
  have h3 := append_toNat (c ++ (BitVec.ofFin x : Nibble) ++ (BitVec.ofFin y : Nibble)) n
  have hx : (BitVec.ofFin x : Nibble).toNat = x.val := rfl
  have hy : (BitVec.ofFin y : Nibble).toNat = y.val := rfl
  refine h3.trans ?_
  rw [h2, h1, hx, hy]
  omega

theorem slice_toNat (w : Word) (start len : Nat) :
    (w.extractLsb' start len).toNat = w.toNat / 2 ^ start % 2 ^ len := by
  rw [BitVec.extractLsb'_toNat, Nat.shiftRight_eq_div_pow]

theorem fieldClass_toNat (w : Word) : (fieldClass w).toNat = w.toNat / 4096 % 16 := slice_toNat w 12 4

theorem fieldX_val (w : Word) : (fieldX w).val = w.toNat / 256 % 16 := slice_toNat w 8 4

theorem fieldY_val (w : Word) : (fieldY w).val = w.toNat / 16 % 16 := slice_toNat w 4 4

theorem fieldN_toNat (w : Word) : (fieldN w).toNat = w.toNat % 16 := by
  have h := slice_toNat w 0 4
  rwa [Nat.pow_zero, Nat.div_one] at h

theorem fieldKK_toNat (w : Word) : (fieldKK w).toNat = w.toNat % 256 := by
  have h := slice_toNat w 0 8
  rwa [Nat.pow_zero, Nat.div_one] at h

theorem fieldNNN_toNat (w : Word) : (fieldNNN w).toNat = w.toNat % 4096 := by
  have h := slice_toNat w 0 12
  rwa [Nat.pow_zero, Nat.div_one] at h

@[simp] theorem fieldClass_wordA (c : Nibble) (nnn : Addr12) : fieldClass (wordA c nnn) = c := by
  apply BitVec.eq_of_toNat_eq; rw [fieldClass_toNat, wordA_toNat]; omega

@[simp] theorem fieldNNN_wordA (c : Nibble) (nnn : Addr12) : fieldNNN (wordA c nnn) = nnn := by
  apply BitVec.eq_of_toNat_eq; rw [fieldNNN_toNat, wordA_toNat]; omega

@[simp] theorem fieldClass_wordI (c : Nibble) (x : Reg) (kk : Byte) : fieldClass (wordI c x kk) = c := by
  apply BitVec.eq_of_toNat_eq; rw [fieldClass_toNat, wordI_toNat]; omega

@[simp] theorem fieldX_wordI (c : Nibble) (x : Reg) (kk : Byte) : fieldX (wordI c x kk) = x := by
  apply Fin.ext; rw [fieldX_val, wordI_toNat]; omega

@[simp] theorem fieldKK_wordI (c : Nibble) (x : Reg) (kk : Byte) : fieldKK (wordI c x kk) = kk := by
  apply BitVec.eq_of_toNat_eq; rw [fieldKK_toNat, wordI_toNat]; omega

@[simp] theorem fieldClass_wordR (c : Nibble) (x y : Reg) (n : Nibble) : fieldClass (wordR c x y n) = c := by
  apply BitVec.eq_of_toNat_eq; rw [fieldClass_toNat, wordR_toNat]; omega

@[simp] theorem fieldX_wordR (c : Nibble) (x y : Reg) (n : Nibble) : fieldX (wordR c x y n) = x := by
  apply Fin.ext; rw [fieldX_val, wordR_toNat]; omega

@[simp] theorem fieldY_wordR (c : Nibble) (x y : Reg) (n : Nibble) : fieldY (wordR c x y n) = y := by
  apply Fin.ext; rw [fieldY_val, wordR_toNat]; omega

@[simp] theorem fieldN_wordR (c : Nibble) (x y : Reg) (n : Nibble) : fieldN (wordR c x y n) = n := by
  apply BitVec.eq_of_toNat_eq; rw [fieldN_toNat, wordR_toNat]; omega

/-- The bytes of a word, put together again, are the word (R33 to R35). -/
@[simp] theorem wordOfBytes_high_low (w : Word) : wordOfBytes (highByte w) (lowByte w) = w := by
  apply BitVec.eq_of_toNat_eq
  refine (append_toNat (highByte w) (lowByte w)).trans ?_
  rw [highByte, lowByte, slice_toNat, slice_toNat]
  omega

/-- The three masks of the opcode map as arithmetic: the class; the class and the bottom nibble; the class and the low
byte (R56). -/
theorem mask_class_toNat (w : Word) : (w &&& 0xF000#16).toNat = w.toNat / 4096 * 4096 := by
  have h : w &&& 0xF000#16 = (w >>> 12) <<< 12 := by
    apply BitVec.eq_of_getLsbD_eq
    intro k hk
    interval_cases k <;> simp
  have hw := w.isLt
  rw [h, BitVec.toNat_shiftLeft, BitVec.toNat_ushiftRight, Nat.shiftRight_eq_div_pow, Nat.shiftLeft_eq]
  omega

theorem mask_low_toNat (w : Word) {n : Nat} (hn : n ≤ 12) :
    (w &&& (0xF000#16 + BitVec.ofNat 16 (2 ^ n - 1))).toNat = w.toNat / 4096 * 4096 + w.toNat % 2 ^ n := by
  have h : w &&& (0xF000#16 + BitVec.ofNat 16 (2 ^ n - 1)) = (w &&& 0xF000#16) + (w &&& BitVec.ofNat 16 (2 ^ n - 1)) := by
    rw [BitVec.add_eq_or_of_and_eq_zero (w &&& 0xF000#16)]
    · rw [BitVec.add_eq_or_of_and_eq_zero]
      · exact BitVec.and_or_distrib_left
      · interval_cases n <;> decide
    · apply BitVec.eq_of_getLsbD_eq
      intro k hk
      interval_cases n <;> interval_cases k <;> simp
  have hw := w.isLt
  have hl : (w &&& BitVec.ofNat 16 (2 ^ n - 1)).toNat = w.toNat % 2 ^ n := by
    rw [BitVec.toNat_and, BitVec.toNat_ofNat]
    have : (2 ^ n - 1) % 2 ^ 16 = 2 ^ n - 1 := by interval_cases n <;> rfl
    rw [this, Nat.and_two_pow_sub_one_eq_mod]
  have hlt : w.toNat % 2 ^ n < 4096 := by interval_cases n <;> simp <;> omega
  rw [h, BitVec.toNat_add, mask_class_toNat, hl]
  omega

theorem wordOfBytes_toNat (hi lo : Byte) : (wordOfBytes hi lo).toNat = hi.toNat * 256 + lo.toNat :=
  append_toNat hi lo

end Sys2Proof
end

