-- ==== Sys2Proof/Laws/Memory.lean ====
section
/-! SUPPORT. What the memory operations do to every byte, and that each keeps the canonical form. -/

namespace Sys2Proof.Machine

@[simp] theorem memGet_nil (a : Nat) : memGet [] a = unlistedByte := rfl

theorem memGet_cons (b : Nat) (u : Byte) (m : Memory) (a : Nat) :
    memGet ((b, u) :: m) a = if a = b then u else memGet m a := rfl

theorem memWfFrom_cons (lo a : Nat) (u : Byte) (m : Memory) :
    memWfFrom lo ((a, u) :: m) = true ↔
      lo ≤ a ∧ a < Config.memSize ∧ u ≠ unlistedByte ∧ memWfFrom (a + 1) m = true := by
  simp [memWfFrom, and_assoc]

/-- The canonical form from a higher address is one from a lower address. -/
theorem memWfFrom_mono {lo lo' : Nat} (h : lo' ≤ lo) {m : Memory} (hm : memWfFrom lo m = true) :
    memWfFrom lo' m = true := by
  cases m with
  | nil => rfl
  | cons c m =>
    obtain ⟨a, u⟩ := c
    rw [memWfFrom_cons] at hm ⊢
    exact ⟨h.trans hm.1, hm.2⟩

/-- Nothing is listed below the address from which the memory is canonical. -/
theorem memGet_below {lo : Nat} {m : Memory} (hm : memWfFrom lo m = true) {a : Nat} (ha : a < lo) :
    memGet m a = unlistedByte := by
  induction m generalizing lo with
  | nil => rfl
  | cons c m ih =>
    obtain ⟨b, u⟩ := c
    rw [memWfFrom_cons] at hm
    rw [memGet_cons, if_neg (by omega)]
    exact ih hm.2.2.2 (by omega)

/-- A write leaves every other address as it was, whatever the memory. -/
theorem memGet_memSet_other (m : Memory) {a b : Nat} (h : b ≠ a) (u : Byte) :
    memGet (memSet m a u) b = memGet m b := by
  induction m with
  | nil => unfold memSet; split <;> simp [memGet_cons, h]
  | cons c m ih =>
    obtain ⟨d, w⟩ := c
    unfold memSet
    split
    · split <;> simp [memGet_cons, h]
    · split
      · subst_vars; split <;> simp [memGet_cons, h]
      · simp [memGet_cons, ih]

/-- A write to a canonical memory is read back. -/
theorem memGet_memSet_same_from {lo : Nat} {m : Memory} (hm : memWfFrom lo m = true) (a : Nat) (u : Byte) :
    memGet (memSet m a u) a = u := by
  induction m generalizing lo with
  | nil => unfold memSet; split <;> simp_all [memGet_cons]
  | cons c m ih =>
    obtain ⟨d, w⟩ := c
    rw [memWfFrom_cons] at hm
    have below : a < d + 1 → memGet m a = unlistedByte := memGet_below hm.2.2.2
    unfold memSet
    split
    · split
      · subst_vars; rw [memGet_cons, if_neg (by omega)]; exact below (by omega)
      · simp [memGet_cons]
    · split
      · split
        · subst_vars; exact below (by omega)
        · simp [memGet_cons]
      · rw [memGet_cons, if_neg (by assumption)]; exact ih hm.2.2.2

theorem memGet_memSet_same {m : Memory} (hm : m.wf = true) (a : Nat) (u : Byte) :
    memGet (memSet m a u) a = u := memGet_memSet_same_from hm a u

/-- A write inside the image keeps the canonical form. -/
theorem memSet_wf_from {lo : Nat} {m : Memory} (hm : memWfFrom lo m = true) {a : Nat} (hlo : lo ≤ a)
    (ha : a < Config.memSize) (u : Byte) : memWfFrom lo (memSet m a u) = true := by
  induction m generalizing lo with
  | nil =>
    unfold memSet; split
    · rfl
    · rw [memWfFrom_cons]; exact ⟨hlo, ha, by assumption, rfl⟩
  | cons c m ih =>
    obtain ⟨d, w⟩ := c
    have h := (memWfFrom_cons ..).mp hm
    unfold memSet
    split
    · split
      · exact hm
      · rw [memWfFrom_cons, memWfFrom_cons]
        exact ⟨hlo, ha, by assumption, by omega, h.2⟩
    · split
      · subst_vars
        split
        · exact memWfFrom_mono (by omega) h.2.2.2
        · rw [memWfFrom_cons]; exact ⟨hlo, ha, by assumption, h.2.2.2⟩
      · rw [memWfFrom_cons]
        exact ⟨h.1, h.2.1, h.2.2.1, ih h.2.2.2 (by omega)⟩

theorem memSet_wf {m : Memory} (hm : m.wf = true) {a : Nat} (ha : a < Config.memSize) (u : Byte) :
    (memSet m a u).wf = true := memSet_wf_from hm (Nat.zero_le a) ha u

/-- A run of bytes inside the image keeps the canonical form. -/
theorem storeBytes_wf {m : Memory} (hm : m.wf = true) {a : Nat} {us : List Byte}
    (ha : a + us.length ≤ Config.memSize) : (storeBytes m a us).wf = true := by
  induction us generalizing m a with
  | nil => exact hm
  | cons u us ih =>
    rw [List.length_cons] at ha
    exact ih (memSet_wf hm (by omega) u) (by omega)

/-- A run of bytes leaves every address outside it as it was, whatever the memory. -/
theorem memGet_storeBytes_outside (m : Memory) {a b : Nat} {us : List Byte}
    (h : b < a ∨ a + us.length ≤ b) : memGet (storeBytes m a us) b = memGet m b := by
  induction us generalizing m a with
  | nil => rfl
  | cons u us ih =>
    rw [List.length_cons] at h
    rw [storeBytes, ih _ (by omega), memGet_memSet_other _ (by omega)]

/-- A run of bytes stored in a canonical memory is read back byte for byte. -/
theorem memGet_storeBytes_inside {m : Memory} (hm : m.wf = true) {a : Nat} {us : List Byte}
    (ha : a + us.length ≤ Config.memSize) {k : Nat} (hk : k < us.length) :
    memGet (storeBytes m a us) (a + k) = us[k] := by
  induction us generalizing m a k with
  | nil => exact absurd hk (Nat.not_lt_zero k)
  | cons u us ih =>
    simp only [List.length_cons] at ha hk
    have hset : (memSet m a u).wf = true := memSet_wf hm (by omega) u
    cases k with
    | zero =>
      rw [storeBytes, memGet_storeBytes_outside _ (by omega)]
      exact memGet_memSet_same hm a u
    | succ k =>
      have := ih hset (a := a + 1) (by omega) (k := k) (by omega)
      rw [storeBytes, show a + (k + 1) = a + 1 + k by omega, this, List.getElem_cons_succ]

/-- Whatever list it is given, the canonical memory is canonical. -/
theorem canonicalMem_wf (m : Memory) : (canonicalMem m).wf = true := by
  induction m with
  | nil => rfl
  | cons c m ih =>
    unfold canonicalMem
    split
    · exact memSet_wf ih (by assumption) c.2
    · exact ih

/-- The canonical memory reads, at every address of the image, as the list it was given. -/
theorem memGet_canonicalMem (m : Memory) {a : Nat} (ha : a < Config.memSize) :
    memGet (canonicalMem m) a = memGet m a := by
  induction m with
  | nil => rfl
  | cons c m ih =>
    obtain ⟨b, u⟩ := c
    rw [memGet_cons, canonicalMem]
    by_cases hab : a = b
    · subst hab; rw [if_pos ha, if_pos rfl, memGet_memSet_same (canonicalMem_wf m)]
    · rw [if_neg hab]
      split
      · rw [memGet_memSet_other _ hab, ih]
      · exact ih

end Sys2Proof.Machine
end

