-- ==== Sys2Proof/Laws/State.lean ====
section
/-! SUPPORT. One lemma per field per update of the state, true by rfl, so that no later proof unfolds a record
update. -/

namespace Sys2Proof.Machine

variable (s : State)

@[simp] theorem setV_v (x : Reg) (b : Byte) : (setV s x b).v = s.v.set x b := rfl
@[simp] theorem setV_i (x : Reg) (b : Byte) : (setV s x b).i = s.i := rfl
@[simp] theorem setV_pc (x : Reg) (b : Byte) : (setV s x b).pc = s.pc := rfl
@[simp] theorem setV_sp (x : Reg) (b : Byte) : (setV s x b).sp = s.sp := rfl
@[simp] theorem setV_stack (x : Reg) (b : Byte) : (setV s x b).stack = s.stack := rfl
@[simp] theorem setV_dt (x : Reg) (b : Byte) : (setV s x b).dt = s.dt := rfl
@[simp] theorem setV_st (x : Reg) (b : Byte) : (setV s x b).st = s.st := rfl
@[simp] theorem setV_mem (x : Reg) (b : Byte) : (setV s x b).mem = s.mem := rfl
@[simp] theorem setV_draws (x : Reg) (b : Byte) : (setV s x b).draws = s.draws := rfl

@[simp] theorem setI_v (w : Word) : (setI s w).v = s.v := rfl
@[simp] theorem setI_i (w : Word) : (setI s w).i = w := rfl
@[simp] theorem setI_pc (w : Word) : (setI s w).pc = s.pc := rfl
@[simp] theorem setI_sp (w : Word) : (setI s w).sp = s.sp := rfl
@[simp] theorem setI_stack (w : Word) : (setI s w).stack = s.stack := rfl
@[simp] theorem setI_dt (w : Word) : (setI s w).dt = s.dt := rfl
@[simp] theorem setI_st (w : Word) : (setI s w).st = s.st := rfl
@[simp] theorem setI_mem (w : Word) : (setI s w).mem = s.mem := rfl
@[simp] theorem setI_draws (w : Word) : (setI s w).draws = s.draws := rfl

@[simp] theorem setPc_v (w : Word) : (setPc s w).v = s.v := rfl
@[simp] theorem setPc_i (w : Word) : (setPc s w).i = s.i := rfl
@[simp] theorem setPc_pc (w : Word) : (setPc s w).pc = w := rfl
@[simp] theorem setPc_sp (w : Word) : (setPc s w).sp = s.sp := rfl
@[simp] theorem setPc_stack (w : Word) : (setPc s w).stack = s.stack := rfl
@[simp] theorem setPc_dt (w : Word) : (setPc s w).dt = s.dt := rfl
@[simp] theorem setPc_st (w : Word) : (setPc s w).st = s.st := rfl
@[simp] theorem setPc_mem (w : Word) : (setPc s w).mem = s.mem := rfl
@[simp] theorem setPc_draws (w : Word) : (setPc s w).draws = s.draws := rfl

@[simp] theorem setSp_v (j : Fin 16) : (setSp s j).v = s.v := rfl
@[simp] theorem setSp_i (j : Fin 16) : (setSp s j).i = s.i := rfl
@[simp] theorem setSp_pc (j : Fin 16) : (setSp s j).pc = s.pc := rfl
@[simp] theorem setSp_sp (j : Fin 16) : (setSp s j).sp = j := rfl
@[simp] theorem setSp_stack (j : Fin 16) : (setSp s j).stack = s.stack := rfl
@[simp] theorem setSp_dt (j : Fin 16) : (setSp s j).dt = s.dt := rfl
@[simp] theorem setSp_st (j : Fin 16) : (setSp s j).st = s.st := rfl
@[simp] theorem setSp_mem (j : Fin 16) : (setSp s j).mem = s.mem := rfl
@[simp] theorem setSp_draws (j : Fin 16) : (setSp s j).draws = s.draws := rfl

@[simp] theorem setStack_v (j : Fin 16) (w : Word) : (setStack s j w).v = s.v := rfl
@[simp] theorem setStack_i (j : Fin 16) (w : Word) : (setStack s j w).i = s.i := rfl
@[simp] theorem setStack_pc (j : Fin 16) (w : Word) : (setStack s j w).pc = s.pc := rfl
@[simp] theorem setStack_sp (j : Fin 16) (w : Word) : (setStack s j w).sp = s.sp := rfl
@[simp] theorem setStack_stack (j : Fin 16) (w : Word) : (setStack s j w).stack = s.stack.set j w := rfl
@[simp] theorem setStack_dt (j : Fin 16) (w : Word) : (setStack s j w).dt = s.dt := rfl
@[simp] theorem setStack_st (j : Fin 16) (w : Word) : (setStack s j w).st = s.st := rfl
@[simp] theorem setStack_mem (j : Fin 16) (w : Word) : (setStack s j w).mem = s.mem := rfl
@[simp] theorem setStack_draws (j : Fin 16) (w : Word) : (setStack s j w).draws = s.draws := rfl

@[simp] theorem setDt_v (b : Byte) : (setDt s b).v = s.v := rfl
@[simp] theorem setDt_i (b : Byte) : (setDt s b).i = s.i := rfl
@[simp] theorem setDt_pc (b : Byte) : (setDt s b).pc = s.pc := rfl
@[simp] theorem setDt_sp (b : Byte) : (setDt s b).sp = s.sp := rfl
@[simp] theorem setDt_stack (b : Byte) : (setDt s b).stack = s.stack := rfl
@[simp] theorem setDt_dt (b : Byte) : (setDt s b).dt = b := rfl
@[simp] theorem setDt_st (b : Byte) : (setDt s b).st = s.st := rfl
@[simp] theorem setDt_mem (b : Byte) : (setDt s b).mem = s.mem := rfl
@[simp] theorem setDt_draws (b : Byte) : (setDt s b).draws = s.draws := rfl

@[simp] theorem setSt_v (b : Byte) : (setSt s b).v = s.v := rfl
@[simp] theorem setSt_i (b : Byte) : (setSt s b).i = s.i := rfl
@[simp] theorem setSt_pc (b : Byte) : (setSt s b).pc = s.pc := rfl
@[simp] theorem setSt_sp (b : Byte) : (setSt s b).sp = s.sp := rfl
@[simp] theorem setSt_stack (b : Byte) : (setSt s b).stack = s.stack := rfl
@[simp] theorem setSt_dt (b : Byte) : (setSt s b).dt = s.dt := rfl
@[simp] theorem setSt_st (b : Byte) : (setSt s b).st = b := rfl
@[simp] theorem setSt_mem (b : Byte) : (setSt s b).mem = s.mem := rfl
@[simp] theorem setSt_draws (b : Byte) : (setSt s b).draws = s.draws := rfl

@[simp] theorem setMem_v (m : Memory) : (setMem s m).v = s.v := rfl
@[simp] theorem setMem_i (m : Memory) : (setMem s m).i = s.i := rfl
@[simp] theorem setMem_pc (m : Memory) : (setMem s m).pc = s.pc := rfl
@[simp] theorem setMem_sp (m : Memory) : (setMem s m).sp = s.sp := rfl
@[simp] theorem setMem_stack (m : Memory) : (setMem s m).stack = s.stack := rfl
@[simp] theorem setMem_dt (m : Memory) : (setMem s m).dt = s.dt := rfl
@[simp] theorem setMem_st (m : Memory) : (setMem s m).st = s.st := rfl
@[simp] theorem setMem_mem (m : Memory) : (setMem s m).mem = m := rfl
@[simp] theorem setMem_draws (m : Memory) : (setMem s m).draws = s.draws := rfl

@[simp] theorem countDraw_v : (countDraw s).v = s.v := rfl
@[simp] theorem countDraw_i : (countDraw s).i = s.i := rfl
@[simp] theorem countDraw_pc : (countDraw s).pc = s.pc := rfl
@[simp] theorem countDraw_sp : (countDraw s).sp = s.sp := rfl
@[simp] theorem countDraw_stack : (countDraw s).stack = s.stack := rfl
@[simp] theorem countDraw_dt : (countDraw s).dt = s.dt := rfl
@[simp] theorem countDraw_st : (countDraw s).st = s.st := rfl
@[simp] theorem countDraw_mem : (countDraw s).mem = s.mem := rfl
@[simp] theorem countDraw_draws : (countDraw s).draws = s.draws + 1 := rfl

@[simp] theorem pushStack_v (w : Word) : (pushStack s w).v = s.v := rfl
@[simp] theorem pushStack_i (w : Word) : (pushStack s w).i = s.i := rfl
@[simp] theorem pushStack_pc (w : Word) : (pushStack s w).pc = s.pc := rfl
@[simp] theorem pushStack_sp (w : Word) : (pushStack s w).sp = s.sp + 1 := rfl
@[simp] theorem pushStack_stack (w : Word) : (pushStack s w).stack = s.stack.set (s.sp + 1 : Fin 16) w := rfl
@[simp] theorem pushStack_dt (w : Word) : (pushStack s w).dt = s.dt := rfl
@[simp] theorem pushStack_st (w : Word) : (pushStack s w).st = s.st := rfl
@[simp] theorem pushStack_mem (w : Word) : (pushStack s w).mem = s.mem := rfl
@[simp] theorem pushStack_draws (w : Word) : (pushStack s w).draws = s.draws := rfl

@[simp] theorem popStack_v : (popStack s).v = s.v := rfl
@[simp] theorem popStack_i : (popStack s).i = s.i := rfl
@[simp] theorem popStack_pc : (popStack s).pc = s.pc := rfl
@[simp] theorem popStack_sp : (popStack s).sp = s.sp - 1 := rfl
@[simp] theorem popStack_stack : (popStack s).stack = s.stack := rfl
@[simp] theorem popStack_dt : (popStack s).dt = s.dt := rfl
@[simp] theorem popStack_st : (popStack s).st = s.st := rfl
@[simp] theorem popStack_mem : (popStack s).mem = s.mem := rfl
@[simp] theorem popStack_draws : (popStack s).draws = s.draws := rfl

@[simp] theorem tick_v : (tick s).v = s.v := rfl
@[simp] theorem tick_i : (tick s).i = s.i := rfl
@[simp] theorem tick_pc : (tick s).pc = s.pc := rfl
@[simp] theorem tick_sp : (tick s).sp = s.sp := rfl
@[simp] theorem tick_stack : (tick s).stack = s.stack := rfl
@[simp] theorem tick_dt : (tick s).dt = tickTimer s.dt := rfl
@[simp] theorem tick_st : (tick s).st = tickTimer s.st := rfl
@[simp] theorem tick_mem : (tick s).mem = s.mem := rfl
@[simp] theorem tick_draws : (tick s).draws = s.draws := rfl

@[simp] theorem loadRegs_v (a : Nat) (x : Reg) : (loadRegs s a x).v =
    Vector.ofFn fun k : Fin 16 => if k ≤ x then memGet s.mem (a + k.val) else s.v[k] := rfl
@[simp] theorem loadRegs_i (a : Nat) (x : Reg) : (loadRegs s a x).i = s.i := rfl
@[simp] theorem loadRegs_pc (a : Nat) (x : Reg) : (loadRegs s a x).pc = s.pc := rfl
@[simp] theorem loadRegs_sp (a : Nat) (x : Reg) : (loadRegs s a x).sp = s.sp := rfl
@[simp] theorem loadRegs_stack (a : Nat) (x : Reg) : (loadRegs s a x).stack = s.stack := rfl
@[simp] theorem loadRegs_dt (a : Nat) (x : Reg) : (loadRegs s a x).dt = s.dt := rfl
@[simp] theorem loadRegs_st (a : Nat) (x : Reg) : (loadRegs s a x).st = s.st := rfl
@[simp] theorem loadRegs_mem (a : Nat) (x : Reg) : (loadRegs s a x).mem = s.mem := rfl
@[simp] theorem loadRegs_draws (a : Nat) (x : Reg) : (loadRegs s a x).draws = s.draws := rfl

@[simp] theorem resetBlock_v : (resetBlock s).v = Vector.replicate 16 0x00 := rfl
@[simp] theorem resetBlock_i : (resetBlock s).i = 0x0000 := rfl
@[simp] theorem resetBlock_pc : (resetBlock s).pc = BitVec.ofNat 16 Config.entry := rfl
@[simp] theorem resetBlock_sp : (resetBlock s).sp = 0 := rfl
@[simp] theorem resetBlock_stack : (resetBlock s).stack = Vector.replicate 16 0x0000 := rfl
@[simp] theorem resetBlock_dt : (resetBlock s).dt = 0x00 := rfl
@[simp] theorem resetBlock_st : (resetBlock s).st = 0x00 := rfl
@[simp] theorem resetBlock_mem : (resetBlock s).mem = [] := rfl
@[simp] theorem resetBlock_draws : (resetBlock s).draws = s.draws := rfl

@[simp] theorem seedState_v (t : State) : (seedState s t).v = t.v := rfl
@[simp] theorem seedState_i (t : State) : (seedState s t).i = t.i := rfl
@[simp] theorem seedState_pc (t : State) : (seedState s t).pc = t.pc := rfl
@[simp] theorem seedState_sp (t : State) : (seedState s t).sp = t.sp := rfl
@[simp] theorem seedState_stack (t : State) : (seedState s t).stack = t.stack := rfl
@[simp] theorem seedState_dt (t : State) : (seedState s t).dt = t.dt := rfl
@[simp] theorem seedState_st (t : State) : (seedState s t).st = t.st := rfl
@[simp] theorem seedState_mem (t : State) : (seedState s t).mem = canonicalMem t.mem := rfl
@[simp] theorem seedState_draws (t : State) : (seedState s t).draws = s.draws := rfl

end Sys2Proof.Machine
end

