-- ==== Sys2Proof/Laws/Ops.lean ====
section
/-! SUPPORT. For each shared operation, everything it can do, once; the provers cite these instead of unfolding. -/

namespace Sys2Proof.Machine

@[simp] theorem raise_eq (f : Fault) : raise f = .fault f := rfl

/-- Two registers are one index or two places. -/
theorem getV_setV (s : State) (x r : Reg) (b : Byte) :
    getV (setV s x b) r = if r = x then b else getV s r := by
  by_cases h : r = x
  · subst h; simp [getV]
  · simp [getV, h, Fin.val_inj, Ne.symm h]

@[simp] theorem getV_setV_same (s : State) (x : Reg) (b : Byte) : getV (setV s x b) x = b := by
  simp [getV_setV]

theorem getV_setV_other (s : State) {x r : Reg} (h : r ≠ x) (b : Byte) : getV (setV s x b) r = getV s r := by
  simp [getV_setV, h]

/-- The same, spelled on the register file. -/
theorem setV_get (s : State) (x r : Reg) (b : Byte) : (setV s x b).v[r] = if r = x then b else s.v[r] :=
  getV_setV s x r b

theorem getV_loadRegs (s : State) (a : Nat) (x r : Reg) :
    getV (loadRegs s a x) r = if r ≤ x then memGet s.mem (a + r.val) else getV s r := by
  simp [getV]

/-- `commit` answers a next state exactly when the new pc is in the image, and then writes it and nothing else. -/
theorem commit_next_iff (s t : State) (npc : Nat) :
    commit s npc = .next t ↔ npc ≤ Config.maxAddress ∧ t = setPc s (BitVec.ofNat 16 npc) := by
  unfold commit
  split
  · simp; omega
  · constructor
    · intro h; cases h; exact ⟨by omega, rfl⟩
    · rintro ⟨-, rfl⟩; rfl

theorem commit_of_le (s : State) {npc : Nat} (h : npc ≤ Config.maxAddress) :
    commit s npc = .next (setPc s (BitVec.ofNat 16 npc)) :=
  (commit_next_iff ..).mpr ⟨h, rfl⟩

/-- `commit` faults exactly when the new pc is outside the image, and names it. -/
theorem commit_fault_iff (s : State) (npc : Nat) (f : Fault) :
    commit s npc = .fault f ↔ Config.maxAddress < npc ∧ f = .addressOutOfRange npc := by
  unfold commit
  split
  · simp only [raise_eq, Host.Outcome.fault.injEq]
    exact ⟨fun h => ⟨by assumption, h.symm⟩, fun h => h.2.symm⟩
  · simp; omega

theorem commit_of_gt (s : State) {npc : Nat} (h : Config.maxAddress < npc) :
    commit s npc = .fault (.addressOutOfRange npc) :=
  (commit_fault_iff ..).mpr ⟨h, rfl⟩

@[simp] theorem commit_not_refused (s : State) (npc : Nat) (r : Refusal) : commit s npc ≠ .refused r := by
  unfold commit; split <;> simp

/-- The pc that `commit` writes reads back as the number it was given. -/
theorem commit_pc {s t : State} {npc : Nat} (h : commit s npc = .next t) : t.pc.toNat = npc := by
  obtain ⟨hle, rfl⟩ := (commit_next_iff ..).mp h
  simp only [Config.maxAddress] at hle
  simp; omega

/-- `checkData` either lets its body run, the range being inside the image, or faults. -/
theorem checkData_next_iff (s t : State) (kmax : Nat) (body : Result) :
    checkData s kmax body = .next t ↔ effAddr s kmax ≤ Config.maxAddress ∧ body = .next t := by
  unfold checkData
  split
  · simp; omega
  · simp; omega

theorem checkData_of_le (s : State) {kmax : Nat} (h : effAddr s kmax ≤ Config.maxAddress) (body : Result) :
    checkData s kmax body = body := by
  unfold checkData; rw [if_neg (by omega)]

theorem checkData_of_gt (s : State) {kmax : Nat} (h : Config.maxAddress < effAddr s kmax) (body : Result) :
    checkData s kmax body = .fault (.addressOutOfRange (max s.i.toNat Config.memSize)) := by
  unfold checkData; rw [if_pos h]; rfl

/-- The memory port inside and outside the image. -/
theorem memRead_of_le (s : State) {a : Nat} (h : a ≤ Config.maxAddress) :
    memRead s a = .ok (memGet s.mem a) := if_pos h

theorem memRead_of_gt (s : State) {a : Nat} (h : Config.maxAddress < a) :
    memRead s a = .error (.addressOutOfRange a) := if_neg (by omega)

/-- The fetch, in the three ranges of pc. -/
theorem fetchWord_of_le (s : State) (h : s.pc.toNat + 1 ≤ Config.maxAddress) :
    fetchWord s = .ok (wordOfBytes (memGet s.mem s.pc.toNat) (memGet s.mem (s.pc.toNat + 1))) := by
  simp [fetchWord, memRead_of_le s (show s.pc.toNat ≤ Config.maxAddress by omega), memRead_of_le s h]

theorem fetchWord_at_top (s : State) (h : s.pc.toNat = Config.maxAddress) :
    fetchWord s = .error (.addressOutOfRange Config.memSize) := by
  simp only [fetchWord, h]
  rfl

theorem fetchWord_of_gt (s : State) (h : Config.maxAddress < s.pc.toNat) :
    fetchWord s = .error (.addressOutOfRange s.pc.toNat) := by
  simp [fetchWord, memRead_of_gt s h]

/-- A fetch succeeds only from an address where two bytes lie in the image. -/
theorem fetchWord_ok {s : State} {w : Word} (h : fetchWord s = .ok w) :
    s.pc.toNat + 1 ≤ Config.maxAddress ∧
      w = wordOfBytes (memGet s.mem s.pc.toNat) (memGet s.mem (s.pc.toNat + 1)) := by
  rcases Nat.lt_trichotomy s.pc.toNat Config.maxAddress with hlt | heq | hgt
  · rw [fetchWord_of_le s hlt] at h
    exact ⟨hlt, (Except.ok.inj h).symm⟩
  · rw [fetchWord_at_top s heq] at h; cases h
  · rw [fetchWord_of_gt s hgt] at h; cases h

/-- A fetch fails only where two bytes do not lie in the image, and names the first address outside it. -/
theorem fetchWord_error {s : State} {f : Fault} (h : fetchWord s = .error f) :
    Config.maxAddress < s.pc.toNat + 1 ∧ f = .addressOutOfRange (max s.pc.toNat Config.memSize) := by
  rcases Nat.lt_trichotomy s.pc.toNat Config.maxAddress with hlt | heq | hgt
  · rw [fetchWord_of_le s hlt] at h; cases h
  · rw [fetchWord_at_top s heq] at h; cases h
    rw [heq]; exact ⟨by omega, rfl⟩
  · rw [fetchWord_of_gt s hgt] at h; cases h
    exact ⟨by omega, by rw [max_eq_left (show Config.memSize ≤ s.pc.toNat from hgt)]⟩

/-- No instruction is fetched iff its word is not, or the word is fetched and decodes to none. -/
theorem fetchInstr_error_iff (s : State) (f : Fault) :
    fetchInstr s = .error f ↔ fetchWord s = .error f ∨
      ∃ w r, fetchWord s = .ok w ∧ decodeWord w = .error r ∧ f = .unrecognizedInstruction w s.pc := by
  unfold fetchInstr
  cases fetchWord s with
  | error g => simp
  | ok w => cases hd : decodeWord w <;> simp [hd, eq_comm]

/-- An instruction is fetched iff its word is fetched and decodes to it. -/
theorem fetchInstr_ok_iff (s : State) (i : Instr) :
    fetchInstr s = .ok i ↔ ∃ w, fetchWord s = .ok w ∧ decodeWord w = .ok i := by
  unfold fetchInstr
  cases fetchWord s with
  | error f => simp
  | ok w =>
    simp only [Except.ok.injEq, exists_eq_left']
    cases decodeWord w <;> simp

/-- A step that answers a next state fetched an instruction and executed it. -/
theorem step_next {s t : State} (h : step s = .next t) :
    ∃ i, fetchInstr s = .ok i ∧ exec i s = .next t := by
  unfold step at h
  split at h
  · cases h
  · exact ⟨_, by assumption, h⟩

theorem step_of_fetch {s : State} {i : Instr} (h : fetchInstr s = .ok i) : step s = exec i s := by
  simp [step, h]

theorem step_of_fetch_error {s : State} {f : Fault} (h : fetchInstr s = .error f) : step s = .fault f := by
  simp [step, h]

/-- The zero-extended address is the address (R54). -/
@[simp] theorem zext16_toNat (nnn : Addr12) : (zext16 nnn).toNat = nnn.toNat := by
  simp [zext16]; omega

/-- A flag byte is 1 or 0 (R12). -/
@[simp] theorem flagByte_toNat (b : Bool) : (flagByte b).toNat = if b = true then 1 else 0 := by cases b <;> rfl

/-- The bit shifted out to the right is the parity; to the left, the top half (R97, R99). -/
@[simp] theorem shiftedOutRight_toNat (a : Byte) : (shiftedOutRight a).toNat = a.toNat % 2 := by
  simp [shiftedOutRight]

@[simp] theorem shiftedOutLeft_toNat (a : Byte) : (shiftedOutLeft a).toNat = a.toNat / 128 := by
  simp [shiftedOutLeft, Nat.shiftRight_eq_div_pow]; omega

@[simp] theorem tickTimer_zero : tickTimer 0 = 0 := rfl

/-- One tick lowers a timer by one and stops at zero. -/
theorem tickTimer_toNat (t : Byte) : (tickTimer t).toNat = t.toNat - 1 := by
  unfold tickTimer
  split
  · simp_all
  · have hlt := t.isLt
    have hne : t.toNat ≠ 0 := fun hz => by
      apply ‹¬ t = 0›
      exact BitVec.eq_of_toNat_eq hz
    rw [BitVec.toNat_sub]
    simp
    omega

/-- `load` copies the program or rejects it whole. -/
theorem load_next_iff (s t : State) (bytes : List Byte) :
    load s bytes = .next t ↔
      bytes.length ≤ Config.maxProgram ∧ t = setMem s (storeBytes s.mem Config.entry bytes) := by
  unfold load
  split
  · simp; omega
  · constructor
    · intro h; cases h; exact ⟨by omega, rfl⟩
    · rintro ⟨-, rfl⟩; rfl

@[simp] theorem firstRegs_length (s : State) (x : Reg) : (firstRegs s x).length = x.val + 1 := by
  simp [firstRegs]

theorem firstRegs_getElem (s : State) (x : Reg) (k : Nat) (hk : k < (firstRegs s x).length) :
    (firstRegs s x)[k] = s.v[k]'(by simp at hk; omega) := by
  simp [firstRegs]

@[simp] theorem bcdDigits_length (b : Byte) : (bcdDigits b).length = 3 := rfl

end Sys2Proof.Machine
end

