-- ==== Sys2Proof/Laws/Exec.lean ====
section
/-! SUPPORT. The one inversion lemma of `exec`, the frames of the state updates, and how the machine's operations see
the fields they do not use. -/

namespace Sys2Proof.Machine

/-- The state an instruction leaves behind before the new pc is committed (R50 step 4). -/
def effect (i : Instr) (s : State) : State :=
  match i with
  | .ret => popStack s
  | .jp _ | .jpo _ | .sei _ _ | .snei _ _ | .ser _ _ => s
  | .call _ => pushStack s s.pc
  | .ldi x kk => setV s x kk
  | .addi x kk => setV s x (getV s x + kk)
  | .mov x y => setV s x (getV s y)
  | .or x y => setV s x (getV s x ||| getV s y)
  | .and x y => setV s x (getV s x &&& getV s y)
  | .xor x y => setV s x (getV s x ^^^ getV s y)
  | .add x y => setV (setV s x (getV s x + getV s y)) 15 (carryFlag (getV s x) (getV s y))
  | .sub x y => let s1 := setV s 15 (greaterFlag (getV s x) (getV s y)); setV s1 x (getV s1 x - getV s1 y)
  | .subn x y => let s1 := setV s 15 (greaterFlag (getV s y) (getV s x)); setV s1 x (getV s1 y - getV s1 x)
  | .shr x _ => let s1 := setV s 15 (shiftedOutRight (getV s x)); setV s1 x (getV s1 x >>> 1)
  | .shl x _ => let s1 := setV s 15 (shiftedOutLeft (getV s x)); setV s1 x (getV s1 x <<< 1)
  | .lda nnn => setI s (zext16 nnn)
  | .adda x => setI s (s.i + (getV s x).zeroExtend 16)
  | .rnd x kk => setV (countDraw s) x (drawnByte s &&& kk)
  | .gdt x => setV s x s.dt
  | .sdt x => setDt s (getV s x)
  | .sst x => setSt s (getV s x)
  | .bcd x => setMem s (storeBytes s.mem (effAddr s 0) (bcdDigits (getV s x)))
  | .stm x => setMem s (storeBytes s.mem (effAddr s 0) (firstRegs s x))
  | .ldm x => loadRegs s (effAddr s 0) x

/-- Everything an instruction can do, once: its own fault of R130's table, else its effect committed at the pc of R15's
table, under the bound check of R50 step 5. -/
theorem exec_shape (i : Instr) (s : State) :
    exec i s = match ownFault i s with
      | some f => .fault f
      | none => commit (effect i s) (pcAfter i s) := by
  have hz : ∀ n : Addr12, (zext16 n).toNat = n.toNat := fun n => by simp [zext16]; omega
  cases i
  case ret => by_cases h : s.sp = 0 <;> simp [exec, execRet, ownFault, h, effect, pcAfter, stackTop]
  case call => by_cases h : s.sp = 15 <;> simp [exec, execCall, ownFault, h, effect, pcAfter, Config.spMax, hz]
  case bcd =>
    by_cases h : 0xFFF < s.i.toNat + 2 <;>
      simp [exec, execBcd, ownFault, rangeFault, h, effect, pcAfter, checkData, effAddr, Config.maxAddress,
        Config.memSize, nextPc]
  case stm x =>
    by_cases h : 0xFFF < s.i.toNat + x.val <;>
      simp [exec, execStm, ownFault, rangeFault, h, effect, pcAfter, checkData, effAddr, Config.maxAddress,
        Config.memSize, nextPc]
  case ldm x =>
    by_cases h : 0xFFF < s.i.toNat + x.val <;>
      simp [exec, execLdm, ownFault, rangeFault, h, effect, pcAfter, checkData, effAddr, Config.maxAddress,
        Config.memSize, nextPc]
  case jp n => simp [exec, execJp, ownFault, effect, pcAfter, hz]
  case sei x kk => by_cases h : s.v[x] = kk <;> simp [exec, execSei, ownFault, effect, pcAfter, skipPc, getV]
  case snei x kk => by_cases h : s.v[x] = kk <;> simp [exec, execSnei, ownFault, effect, pcAfter, skipPc, getV]
  case ser x kk => by_cases h : s.v[x] = s.v[kk] <;> simp [exec, execSer, ownFault, effect, pcAfter, skipPc, getV]
  all_goals rfl

/-- A change of pc alone is within every frame. -/
theorem onlyPc_setPc (s : State) (w : Word) : OnlyPc s (setPc s w) :=
  ⟨fun _ _ => rfl, rfl, ⟨rfl, fun _ => rfl⟩, ⟨rfl, rfl⟩, fun _ => rfl, rfl⟩

/-- One register written, and pc. -/
theorem onlyRegs_setV (s : State) (x : Reg) (b : Byte) (w : Word) : OnlyRegs (· = x) s (setPc (setV s x b) w) :=
  ⟨fun _ h => getV_setV_other s h b, rfl, ⟨rfl, fun _ => rfl⟩, ⟨rfl, rfl⟩, fun _ => rfl, rfl⟩

/-- Two registers written, and pc. -/
theorem onlyRegs_setV_setV (s : State) (x y : Reg) (b c : Byte) (w : Word) :
    OnlyRegs (fun r => r = x ∨ r = y) s (setPc (setV (setV s x b) y c) w) := by
  refine ⟨fun r h => ?_, rfl, ⟨rfl, fun _ => rfl⟩, ⟨rfl, rfl⟩, fun _ => rfl, rfl⟩
  rw [not_or] at h
  exact (getV_setV_other _ h.2 c).trans (getV_setV_other s h.1 b)

/-- The registers up to `x` loaded, and pc. -/
theorem onlyRegs_loadRegs (s : State) (a : Nat) (x : Reg) (w : Word) :
    OnlyRegs (· ≤ x) s (setPc (loadRegs s a x) w) := by
  refine ⟨fun r h => ?_, by simp, ⟨by simp, by simp⟩, ⟨by simp, by simp⟩, fun _ => by simp, by simp⟩
  have h' : ¬ r ≤ x := h
  have hr := getV_loadRegs s a x r
  rw [if_neg h'] at hr
  exact hr

/-- The timers are read neither by the fetch nor by what decides a fault or the next pc. -/
@[simp] theorem fetchInstr_tick (s : State) : fetchInstr (tick s) = fetchInstr s := rfl

@[simp] theorem ownFault_tick (i : Instr) (s : State) : ownFault i (tick s) = ownFault i s := by cases i <;> rfl

@[simp] theorem pcAfter_tick (i : Instr) (s : State) : pcAfter i (tick s) = pcAfter i s := by cases i <;> rfl

end Sys2Proof.Machine
end

