-- ==== Sys2Proof/Laws/PerInstr.lean ====
section
/-! SUPPORT. Statements made for every instruction, one lemma per constructor. -/

namespace Sys2Proof.Laws.RowFits

/-- The word of an instruction fits the opcode-map row of its own mnemonic (30_encoding.md R56): the encoder, written
from the layouts of R53, against the printed mask and match columns. -/
def Statement (i : Instr) : Prop := ∃ r ∈ opcodeRows, r.mnemonic = i.mnemonic ∧ r.fits (encode i) = true

/-- A word fits a row that is all operand below the class. -/
theorem fits_class {w : Word} {c : Nat} (hc : c < 16) (h : w.toNat / 4096 = c) (m : String) :
    OpcodeRow.fits ⟨m, BitVec.ofNat 16 (c * 4096), 0xF000⟩ w = true := by
  rw [OpcodeRow.fits, beq_iff_eq, ← BitVec.toNat_inj]
  refine (mask_class_toNat w).trans ?_
  rw [h, BitVec.toNat_ofNat]
  omega

/-- A word fits a row that also selects by its low `n` bits. -/
theorem fits_low {w : Word} {c n k : Nat} (hn : n ≤ 12) (hk : k < 4096) (h : w.toNat / 4096 = c)
    (hl : w.toNat % 2 ^ n = k) (m : String) :
    OpcodeRow.fits ⟨m, BitVec.ofNat 16 (c * 4096 + k), 0xF000#16 + BitVec.ofNat 16 (2 ^ n - 1)⟩ w = true := by
  rw [OpcodeRow.fits, beq_iff_eq, ← BitVec.toNat_inj]
  rw [mask_low_toNat w hn, h, hl, BitVec.toNat_ofNat]
  omega

theorem wordA_class (c : Nibble) (nnn : Addr12) : (wordA c nnn).toNat / 4096 = c.toNat := by
  rw [wordA_toNat]; omega

theorem wordI_class (c : Nibble) (x : Reg) (kk : Byte) : (wordI c x kk).toNat / 4096 = c.toNat := by
  rw [wordI_toNat]; omega

theorem wordI_low (c : Nibble) (x : Reg) (kk : Byte) : (wordI c x kk).toNat % 2 ^ 8 = kk.toNat := by
  rw [wordI_toNat]; omega

theorem wordR_class (c : Nibble) (x y : Reg) (n : Nibble) : (wordR c x y n).toNat / 4096 = c.toNat := by
  rw [wordR_toNat]; omega

theorem wordR_low (c : Nibble) (x y : Reg) (n : Nibble) : (wordR c x y n).toNat % 2 ^ 4 = n.toNat := by
  rw [wordR_toNat]; omega

/-- A format A word fits the row of its class. -/
theorem fitsA (c : Nibble) (nnn : Addr12) (m : String) :
    OpcodeRow.fits ⟨m, BitVec.ofNat 16 (c.toNat * 4096), 0xF000⟩ (wordA c nnn) = true :=
  fits_class c.isLt (wordA_class c nnn) m

/-- A format I word fits the row of its class. -/
theorem fitsI (c : Nibble) (x : Reg) (kk : Byte) (m : String) :
    OpcodeRow.fits ⟨m, BitVec.ofNat 16 (c.toNat * 4096), 0xF000⟩ (wordI c x kk) = true :=
  fits_class c.isLt (wordI_class c x kk) m

/-- A format X word fits the row of its class and low byte. -/
theorem fitsX (c : Nibble) (x : Reg) (kk : Byte) (m : String) :
    OpcodeRow.fits ⟨m, BitVec.ofNat 16 (c.toNat * 4096 + kk.toNat), 0xF0FF⟩ (wordI c x kk) = true :=
  fits_low (by omega) (by omega) (wordI_class c x kk) (wordI_low c x kk) m

/-- A format R word fits the row of its class and bottom nibble. -/
theorem fitsR (c : Nibble) (x y : Reg) (n : Nibble) (m : String) :
    OpcodeRow.fits ⟨m, BitVec.ofNat 16 (c.toNat * 4096 + n.toNat), 0xF00F⟩ (wordR c x y n) = true :=
  fits_low (by omega) (by omega) (wordR_class c x y n) (wordR_low c x y n) m

theorem ret : Statement .ret := ⟨⟨"RET", 0x00EE, 0xFFFF⟩, by decide, rfl, by decide⟩
theorem jp (nnn : Addr12) : Statement (.jp nnn) := ⟨_, by decide, rfl, fitsA 0x1 nnn "JP"⟩
theorem call (nnn : Addr12) : Statement (.call nnn) := ⟨_, by decide, rfl, fitsA 0x2 nnn "CALL"⟩
theorem sei (x : Reg) (kk : Byte) : Statement (.sei x kk) := ⟨_, by decide, rfl, fitsI 0x3 x kk "SEI"⟩
theorem snei (x : Reg) (kk : Byte) : Statement (.snei x kk) := ⟨_, by decide, rfl, fitsI 0x4 x kk "SNEI"⟩
theorem ser (x y : Reg) : Statement (.ser x y) := ⟨_, by decide, rfl, fitsR 0x5 x y 0x0 "SER"⟩
theorem ldi (x : Reg) (kk : Byte) : Statement (.ldi x kk) := ⟨_, by decide, rfl, fitsI 0x6 x kk "LDI"⟩
theorem addi (x : Reg) (kk : Byte) : Statement (.addi x kk) := ⟨_, by decide, rfl, fitsI 0x7 x kk "ADDI"⟩
theorem mov (x y : Reg) : Statement (.mov x y) := ⟨_, by decide, rfl, fitsR 0x8 x y 0x0 "MOV"⟩
theorem or (x y : Reg) : Statement (.or x y) := ⟨_, by decide, rfl, fitsR 0x8 x y 0x1 "OR"⟩
theorem and (x y : Reg) : Statement (.and x y) := ⟨_, by decide, rfl, fitsR 0x8 x y 0x2 "AND"⟩
theorem xor (x y : Reg) : Statement (.xor x y) := ⟨_, by decide, rfl, fitsR 0x8 x y 0x3 "XOR"⟩
theorem add (x y : Reg) : Statement (.add x y) := ⟨_, by decide, rfl, fitsR 0x8 x y 0x4 "ADD"⟩
theorem sub (x y : Reg) : Statement (.sub x y) := ⟨_, by decide, rfl, fitsR 0x8 x y 0x5 "SUB"⟩
theorem shr (x y : Reg) : Statement (.shr x y) := ⟨_, by decide, rfl, fitsR 0x8 x y 0x6 "SHR"⟩
theorem subn (x y : Reg) : Statement (.subn x y) := ⟨_, by decide, rfl, fitsR 0x8 x y 0x7 "SUBN"⟩
theorem shl (x y : Reg) : Statement (.shl x y) := ⟨_, by decide, rfl, fitsR 0x8 x y 0xE "SHL"⟩
theorem lda (nnn : Addr12) : Statement (.lda nnn) := ⟨_, by decide, rfl, fitsA 0xA nnn "LDA"⟩
theorem jpo (nnn : Addr12) : Statement (.jpo nnn) := ⟨_, by decide, rfl, fitsA 0xB nnn "JPO"⟩
theorem rnd (x : Reg) (kk : Byte) : Statement (.rnd x kk) := ⟨_, by decide, rfl, fitsI 0xC x kk "RND"⟩
theorem gdt (x : Reg) : Statement (.gdt x) := ⟨_, by decide, rfl, fitsX 0xF x 0x07 "GDT"⟩
theorem sdt (x : Reg) : Statement (.sdt x) := ⟨_, by decide, rfl, fitsX 0xF x 0x15 "SDT"⟩
theorem sst (x : Reg) : Statement (.sst x) := ⟨_, by decide, rfl, fitsX 0xF x 0x18 "SST"⟩
theorem adda (x : Reg) : Statement (.adda x) := ⟨_, by decide, rfl, fitsX 0xF x 0x1E "ADDA"⟩
theorem bcd (x : Reg) : Statement (.bcd x) := ⟨_, by decide, rfl, fitsX 0xF x 0x33 "BCD"⟩
theorem stm (x : Reg) : Statement (.stm x) := ⟨_, by decide, rfl, fitsX 0xF x 0x55 "STM"⟩
theorem ldm (x : Reg) : Statement (.ldm x) := ⟨_, by decide, rfl, fitsX 0xF x 0x65 "LDM"⟩

end Sys2Proof.Laws.RowFits
end

