-- ==== Sys2Proof/Tests/Slice0.lean ====
section
/-! SUPPORT. Small tests: the check of words, decoding of words written out from the spec, one step per test on a small
state with the expected result taken from spec/95_test_vectors.md (the vector's name stands in the comment), and for
every statement with hypotheses a witness that meets them, with values where clauses meet. -/

namespace Sys2Proof.Tests

open Sys2Proof.Machine

/-- A start state: the reset state with some registers set (the "before" column of a vector). -/
def withV (rs : List (Reg × Byte)) (s : State) : State := rs.foldl (fun s r => setV s r.1 r.2) s

/-- The reset state with pc at `p`. -/
def atPc (p : Word) : State := setPc State.reset p

/-- One step from `s` with the instruction word `w` at its pc. -/
def run (w : Nat) (s : State) : Result := step (s.withFetchWord 16 w)

/-- The step answers a next state of which `p` holds. -/
def nextIs (r : Result) (p : State → Bool) : Bool :=
  match r with
  | .next t => p t
  | .fault _ => false
  | .refused _ => false

/-- The step answers the fault `f`. -/
def faultIs (r : Result) (f : Fault) : Bool :=
  match r with
  | .next _ => false
  | .fault g => g == f
  | .refused _ => false

/-! ## The check of words: for each kind of row an ill-formed word, refused (R57, R58) -/

/-- R58: class 0 except `0x00EE`; the all-zero word and the historical `00E0` among them. -/
theorem test_illFormed_classZero :
    wellFormedWord 0x0000 = false ∧ wellFormedWord 0x00E0 = false ∧ wellFormedWord 0x01EE = false := by decide

/-- R58: class 5 with a bottom nibble other than 0. -/
theorem test_illFormed_skipSelector : wellFormedWord 0x5AB1 = false ∧ wellFormedWord 0x5ABF = false := by decide

/-- R58: class 8 with a selector that no row has. -/
theorem test_illFormed_aluSelector : wellFormedWord 0x8AB8 = false ∧ wellFormedWord 0x8ABF = false := by decide

/-- R58, R59: the absent classes 9, D and E. -/
theorem test_illFormed_absentClass :
    wellFormedWord 0x9AB0 = false ∧ wellFormedWord 0xD123 = false ∧ wellFormedWord 0xE19E = false := by decide

/-- R58: class F with a low byte that no row has. -/
theorem test_illFormed_miscSelector : wellFormedWord 0xF10A = false ∧ wellFormedWord 0xF175 = false := by decide

/-- The words of the map itself pass (R56). -/
theorem test_wellFormed_rows : (opcodeRows.all fun r => wellFormedWord r.pattern) = true := by decide

/-- R56: the 27 patterns are pairwise disjoint. -/
theorem test_rows_disjoint :
    opcodeRows.Pairwise fun r q => (r.pattern ^^^ q.pattern) &&& r.mask &&& q.mask ≠ 0 := by decide

/-- R56: 27 rows. -/
theorem test_rows_count : opcodeRows.length = 27 := by decide

/-! ## Decoding: every constructor from a word written out from R53 and R56 (vectors V30) -/

theorem test_decode_control :
    decodeWord 0b0000000011101110 = .ok .ret ∧ decodeWord 0b0001111111111111 = .ok (.jp 0xFFF) ∧
    decodeWord 0b0010000000000000 = .ok (.call 0x000) ∧ decodeWord 0b1011000100100011 = .ok (.jpo 0x123) := by decide

theorem test_decode_skip :
    decodeWord 0b0011101000000000 = .ok (.sei 0xA 0x00) ∧ decodeWord 0b0100111111111111 = .ok (.snei 0xF 0xFF) ∧
    decodeWord 0b0101101010110000 = .ok (.ser 0xA 0xB) := by decide

theorem test_decode_immediate :
    decodeWord 0b0110111100010010 = .ok (.ldi 0xF 0x12) ∧ decodeWord 0b0111000000000000 = .ok (.addi 0x0 0x00) := by
  decide

theorem test_decode_alu :
    decodeWord 0b1000101010110000 = .ok (.mov 0xA 0xB) ∧ decodeWord 0b1000101010110001 = .ok (.or 0xA 0xB) ∧
    decodeWord 0b1000101010110010 = .ok (.and 0xA 0xB) ∧ decodeWord 0b1000101010110011 = .ok (.xor 0xA 0xB) ∧
    decodeWord 0b1000101010110100 = .ok (.add 0xA 0xB) ∧ decodeWord 0b1000101010110101 = .ok (.sub 0xA 0xB) := by
  decide

theorem test_decode_alu_shifts :
    decodeWord 0b1000101010110110 = .ok (.shr 0xA 0xB) ∧ decodeWord 0b1000101010110111 = .ok (.subn 0xA 0xB) ∧
    decodeWord 0b1000101010111110 = .ok (.shl 0xA 0xB) := by decide

theorem test_decode_address :
    decodeWord 0b1010000100100011 = .ok (.lda 0x123) ∧ decodeWord 0b1111000100011110 = .ok (.adda 0x1) := by decide

theorem test_decode_random : decodeWord 0b1100010111110000 = .ok (.rnd 0x5 0xF0) := by decide

theorem test_decode_timers :
    decodeWord 0b1111000100000111 = .ok (.gdt 0x1) ∧ decodeWord 0b1111000100010101 = .ok (.sdt 0x1) ∧
    decodeWord 0b1111000100011000 = .ok (.sst 0x1) := by decide

theorem test_decode_memory :
    decodeWord 0b1111000100110011 = .ok (.bcd 0x1) ∧ decodeWord 0b1111000101010101 = .ok (.stm 0x1) ∧
    decodeWord 0b1111000101100101 = .ok (.ldm 0x1) := by decide

/-- Words that are no instruction are rejected by name (V30-2, V30-10, V30-14, V30-16, V30-22). -/
theorem test_decode_rejects :
    decodeWord 0x0000 = .error .wordOfClassZero ∧ decodeWord 0x5AB1 = .error .wordSkipSelector ∧
    decodeWord 0x8AB8 = .error .wordAluSelector ∧ decodeWord 0x9AB0 = .error .wordAbsentClass ∧
    decodeWord 0xF129 = .error .wordMiscSelector := by decide

/-- Byte order (R34, V30): the bytes `12 34` are the word `1234`; one byte is too short. -/
theorem test_decode_bytes :
    decode [0x12, 0x34, 0x56] = .ok (.jp 0x234, [0x56]) ∧ decode [0x12] = .error .tooShort ∧
    decodeTableWord 16 0x1234 = some (.jp 0x234) ∧ decodeTableWord 16 0x0000 = none := by decide

/-- The words of two instructions, written out (R53; the unused `y` of a shift is part of its word). -/
theorem test_encode : encode (.sub 0xA 0xB) = 0x8AB5 ∧ encode (.shr 0x4 0x7) = 0x8476 := by decide

/-! ## Reset, load, tick -/

/-- V70-1. -/
theorem test_reset :
    State.reset.pc = 0x0200 ∧ State.reset.v[(15 : Fin 16)] = 0 ∧ memGet State.reset.mem 0x200 = 0 := by decide

/-- V60-10: an empty machine faults on its first step. -/
theorem test_reset_first_step : faultIs (step State.reset) (.unrecognizedInstruction 0x0000 0x0200) = true := by decide

/-- V70-2. -/
theorem test_load :
    nextIs (load State.reset [0x60, 0xFF, 0x12, 0x02]) (fun t =>
      memGet t.mem 0x1FF == 0 && memGet t.mem 0x200 == 0x60 && memGet t.mem 0x203 == 0x02 &&
        memGet t.mem 0x204 == 0 && t.pc == 0x200) = true := by decide

/-- V46-4, V46-5. -/
theorem test_tick :
    (tick { State.reset with dt := 0x03, st := 0x01 }).dt = 0x02 ∧
    (tick { State.reset with dt := 0x03, st := 0x01 }).st = 0x00 ∧ (tick State.reset).dt = 0x00 := by decide

/-! ## One step each, with the spec's vectors -/

/-- V40-1. -/
theorem test_ret :
    nextIs (run 0x00EE { State.reset with sp := 3, stack := (State.reset.stack.set 3 0x0456).set 2 0x0300 })
      (fun t => t.pc == 0x0456 && t.sp == 2 && t.stack[3] == 0x0456) = true := by decide

/-- V40-2, V40-13. -/
theorem test_ret_faults :
    faultIs (run 0x00EE State.reset) .stackUnderflow = true ∧
    faultIs (run 0x00EE { State.reset with sp := 1, stack := State.reset.stack.set 1 0x1234 })
      (.addressOutOfRange 0x1234) = true := by decide

/-- V40-3: no increment after a jump. -/
theorem test_jp : nextIs (run 0x1ABC State.reset) (fun t => t.pc == 0x0ABC) = true := by decide

/-- The source's §8 example S7: the call pushes its own, odd, address. -/
theorem test_call :
    nextIs (run 0x2E48 (atPc 0x0FF5)) (fun t => t.pc == 0x0E48 && t.sp == 1 && t.stack[1] == 0x0FF5) = true := by
  decide

/-- V40-6, V40-7. -/
theorem test_call_depth :
    faultIs (run 0x2ABC { State.reset with sp := 15 }) .stackOverflow = true ∧
    nextIs (run 0x2ABC { State.reset with sp := 14 }) (fun t => t.sp == 15 && t.stack[15] == 0x0200) = true := by
  decide

/-- V40-12: the base is `V0`, not the register of the top nibble of `nnn`. -/
theorem test_jpo : nextIs (run 0xB2F0 (withV [(0, 0x20), (2, 0x77)] State.reset)) (fun t => t.pc == 0x0310) = true := by
  decide

/-- V40-9: the sum is not masked. -/
theorem test_jpo_fault :
    faultIs (run 0xBFFF (withV [(0, 0xFF)] State.reset)) (.addressOutOfRange 0x10FE) = true := by decide

/-- S8. -/
theorem test_sei :
    nextIs (run 0x332A (withV [(3, 0x2A)] State.reset)) (fun t => t.pc == 0x0204) = true ∧
    nextIs (run 0x332A (withV [(3, 0x2B)] State.reset)) (fun t => t.pc == 0x0202) = true := by decide

/-- V41-11. -/
theorem test_sei_at_top :
    faultIs (run 0x3000 (atPc 0x0FFE)) (.addressOutOfRange 0x1002) = true ∧
    faultIs (run 0x3000 (withV [(0, 0x01)] (atPc 0x0FFE))) (.addressOutOfRange 0x1000) = true := by decide

/-- V41-3, V41-4. -/
theorem test_snei :
    nextIs (run 0x4000 State.reset) (fun t => t.pc == 0x0202) = true ∧
    nextIs (run 0x40FF State.reset) (fun t => t.pc == 0x0204) = true := by decide

/-- S8. -/
theorem test_ser :
    nextIs (run 0x5120 (withV [(1, 7), (2, 7)] State.reset)) (fun t => t.pc == 0x0204) = true ∧
    nextIs (run 0x5120 (withV [(1, 7), (2, 8)] State.reset)) (fun t => t.pc == 0x0202) = true := by decide

/-- V42-1. -/
theorem test_ldi : nextIs (run 0x6A7F State.reset) (fun t => t.v[10] == 0x7F && t.pc == 0x0202) = true := by decide

/-- V42-8: at the top of memory nothing is performed. -/
theorem test_ldi_at_top : faultIs (run 0x6055 (atPc 0x0FFE)) (.addressOutOfRange 0x1000) = true := by decide

/-- V42-4: wrap, and no flag. -/
theorem test_addi :
    nextIs (run 0x7080 (withV [(0, 0x80), (15, 0x01)] State.reset)) (fun t => t.v[0] == 0x00 && t.v[15] == 0x01) = true := by
  decide

/-- V43-1. -/
theorem test_mov :
    nextIs (run 0x8010 (withV [(1, 0x33), (15, 0x01)] State.reset)) (fun t => t.v[0] == 0x33 && t.v[15] == 0x01) = true := by
  decide

/-- V43-2: no flag. -/
theorem test_or :
    nextIs (run 0x8121 (withV [(1, 0xF0), (2, 0x0F), (15, 0x01)] State.reset))
      (fun t => t.v[1] == 0xFF && t.v[15] == 0x01) = true := by decide

/-- V43-3. -/
theorem test_and :
    nextIs (run 0x8122 (withV [(1, 0xF3), (2, 0x3F)] State.reset)) (fun t => t.v[1] == 0x33) = true := by decide

/-- V43-4. -/
theorem test_xor :
    nextIs (run 0x8123 (withV [(1, 0xFF), (2, 0x0F)] State.reset)) (fun t => t.v[1] == 0xF0) = true := by decide

/-- V43-10, V43-11. -/
theorem test_add :
    nextIs (run 0x8014 (withV [(0, 0xFF), (1, 0x01)] State.reset)) (fun t => t.v[0] == 0x00 && t.v[15] == 0x01) = true ∧
    nextIs (run 0x8014 (withV [(0, 0x7F), (1, 0x80)] State.reset)) (fun t => t.v[0] == 0xFF && t.v[15] == 0x00) = true := by
  decide

/-- V43-16, V43-17: `VF` as an operand. -/
theorem test_add_vf :
    nextIs (run 0x82F4 (withV [(2, 0xFF), (15, 0x01)] State.reset)) (fun t => t.v[2] == 0x00 && t.v[15] == 0x01) = true ∧
    nextIs (run 0x8F24 (withV [(15, 0xF0), (2, 0x20)] State.reset)) (fun t => t.v[15] == 0x01) = true := by decide

/-- V43-20, V43-21: the flag is strict. -/
theorem test_sub :
    nextIs (run 0x8015 (withV [(0, 0x05), (1, 0x05)] State.reset)) (fun t => t.v[0] == 0x00 && t.v[15] == 0x00) = true ∧
    nextIs (run 0x8015 (withV [(0, 0x00), (1, 0x01)] State.reset)) (fun t => t.v[0] == 0xFF && t.v[15] == 0x00) = true := by
  decide

/-- V43-26, V43-29: the new flag is the operand. -/
theorem test_sub_vf :
    nextIs (run 0x82F5 (withV [(2, 0x05), (15, 0x03)] State.reset)) (fun t => t.v[2] == 0x04 && t.v[15] == 0x01) = true ∧
    nextIs (run 0x8F25 (withV [(15, 0x05), (2, 0x03)] State.reset)) (fun t => t.v[15] == 0xFE) = true := by decide

/-- V43-44, V43-41: `y` is ignored, and no sign is copied. -/
theorem test_shr :
    nextIs (run 0x8476 (withV [(4, 0x01), (7, 0xAA)] State.reset))
      (fun t => t.v[4] == 0x00 && t.v[15] == 0x01 && t.v[7] == 0xAA) = true ∧
    nextIs (run 0x8406 (withV [(4, 0x80)] State.reset)) (fun t => t.v[4] == 0x40 && t.v[15] == 0x00) = true := by decide

/-- V43-45. -/
theorem test_shr_vf : nextIs (run 0x8F06 (withV [(15, 0xFF)] State.reset)) (fun t => t.v[15] == 0x00) = true := by decide

/-- V43-50, V43-51. -/
theorem test_subn :
    nextIs (run 0x8017 (withV [(0, 0x03), (1, 0x0A)] State.reset)) (fun t => t.v[0] == 0x07 && t.v[15] == 0x01) = true ∧
    nextIs (run 0x8017 (withV [(0, 0x0A), (1, 0x03)] State.reset)) (fun t => t.v[0] == 0xF9 && t.v[15] == 0x00) = true := by
  decide

/-- V43-56, V43-58. -/
theorem test_subn_vf :
    nextIs (run 0x82F7 (withV [(2, 0x03), (15, 0x05)] State.reset)) (fun t => t.v[2] == 0xFE && t.v[15] == 0x01) = true ∧
    nextIs (run 0x8F27 (withV [(15, 0x03), (2, 0x05)] State.reset)) (fun t => t.v[15] == 0x04) = true := by decide

/-- V43-70, V43-74. -/
theorem test_shl :
    nextIs (run 0x840E (withV [(4, 0x81)] State.reset)) (fun t => t.v[4] == 0x02 && t.v[15] == 0x01) = true ∧
    nextIs (run 0x847E (withV [(4, 0x01), (7, 0x80)] State.reset))
      (fun t => t.v[4] == 0x02 && t.v[15] == 0x00 && t.v[7] == 0x80) = true := by decide

/-- V43-75. -/
theorem test_shl_vf : nextIs (run 0x8F0E (withV [(15, 0x80)] State.reset)) (fun t => t.v[15] == 0x02) = true := by decide

/-- V44-1. -/
theorem test_lda : nextIs (run 0xA2F0 { State.reset with i := 0xFFFF }) (fun t => t.i == 0x02F0) = true := by decide

/-- V44-4, V44-6: neither a 12-bit mask nor a flag, and the 16-bit wrap. -/
theorem test_adda :
    nextIs (run 0xF11E (withV [(1, 0x01)] { State.reset with i := 0x0FFF }))
      (fun t => t.i == 0x1000 && t.v[15] == 0x00) = true ∧
    nextIs (run 0xF11E (withV [(1, 0x01)] { State.reset with i := 0xFFFF })) (fun t => t.i == 0x0000) = true := by decide

/-- V45-2: with the mask 0 the result is 0 whatever is drawn; one draw is counted. -/
theorem test_rnd : ∃ t, exec (.rnd 3 0x00) (withV [(3, 0xFF)] State.reset) = .next t ∧ t.v[3] = 0x00 ∧ t.draws = 1 :=
  ⟨_, rfl, BitVec.and_zero, rfl⟩

/-- V45-5: at the top of memory the instruction is not performed. -/
theorem test_rnd_at_top : faultIs (run 0xC3FF (atPc 0x0FFE)) (.addressOutOfRange 0x1000) = true := by decide

/-- V46-1. -/
theorem test_gdt :
    nextIs (run 0xF507 { State.reset with dt := 0x2C }) (fun t => t.v[5] == 0x2C && t.dt == 0x2C) = true := by decide

/-- V46-2. -/
theorem test_sdt :
    nextIs (run 0xF515 (withV [(5, 0x3C)] { State.reset with dt := 0x07 })) (fun t => t.dt == 0x3C && t.st == 0x00) = true := by
  decide

/-- V46-3. -/
theorem test_sst :
    nextIs (run 0xF018 (withV [(0, 0x05)] State.reset)) (fun t => t.st == 0x05 && t.dt == 0x00) = true := by decide

/-- The source's §8 example S6. -/
theorem test_bcd :
    nextIs (run 0xF033 (withV [(0, 0x9A)] { State.reset with i := 0x0300 }))
      (fun t => memGet t.mem 0x300 == 1 && memGet t.mem 0x301 == 5 && memGet t.mem 0x302 == 4 && t.i == 0x0300) = true := by
  decide

/-- V47-5, V47-12: the range is checked first, and the data fault outranks the one on pc. -/
theorem test_bcd_faults :
    faultIs (run 0xF333 (withV [(3, 0xFF)] { State.reset with i := 0x0FFE })) (.addressOutOfRange 0x1000) = true ∧
    faultIs (run 0xF033 { atPc 0x0FFE with i := 0x2000 }) (.addressOutOfRange 0x2000) = true := by decide

/-- V47-6, S5: inclusive of `x`, and no further. -/
theorem test_stm :
    nextIs (run 0xF255 (withV [(0, 0x11), (1, 0x22), (2, 0x33), (3, 0x44)] { State.reset with i := 0x0400 }))
      (fun t => memGet t.mem 0x400 == 0x11 && memGet t.mem 0x402 == 0x33 && memGet t.mem 0x403 == 0x00 &&
        t.i == 0x0400) = true := by decide

/-- V60-5: the data address is reported, not pc. -/
theorem test_stm_fault :
    faultIs (run 0xF155 (withV [(0, 0x01), (1, 0x02)] { atPc 0x0FFE with i := 0x0FFF })) (.addressOutOfRange 0x1000) = true := by
  decide

/-- V47-10. -/
theorem test_ldm :
    nextIs (run 0xF165 (withV [(2, 0xEE)] { State.reset with i := 0x0300, mem := [(0x300, 1), (0x301, 2), (0x302, 3)] }))
      (fun t => t.v[0] == 0x01 && t.v[1] == 0x02 && t.v[2] == 0xEE && t.i == 0x0300) = true := by decide

/-- V47-11. -/
theorem test_ldm_fault :
    faultIs (run 0xF065 { State.reset with i := 0x1000 }) (.addressOutOfRange 0x1000) = true := by decide

/-- The order the host must keep (R162): the boot order passes, a step before the load does not. -/
theorem test_hostOrder :
    HostOrder [.reset, .load [0x12, 0x00], .step, .tick, .step] = true ∧ HostOrder [.reset, .step] = false := by decide

/-- R149, R32: a byte seeded in any order of the list is overwritten by a later write, and reads back as written. -/
theorem test_seed_write_read :
    (runHost [.seed { State.reset with mem := [(0x300, 1), (0x200, 5)] }, .write 0x200 0, .read 0x200, .read 0x300]
      (.live State.reset)).2 = [.ok, .ok, .byte 0, .byte 1] := by decide

/-- R149, R18: a seeded list that names an address twice, a zero byte or an address outside the image. -/
theorem test_seed_canonical :
    (seedState State.reset { State.reset with mem := [(0x1000, 7), (0x300, 1), (0x200, 0), (0x300, 2)] }).mem =
      [(0x300, 1)] := by decide

/-! ## Witnesses: a state and operands that meet the hypotheses of each statement, with values where clauses meet -/

theorem witness_MemReadPort : (0xFFF : Nat) ≤ 0xFFF ∧ (0xFFF : Nat) < 0x1000 := by decide

theorem witness_MemWritePort :
    (0xFFF : Nat) ≤ 0xFFF ∧ Memory.wf State.reset.mem = true ∧ (0xFFF : Nat) < 0x1000 := by decide

theorem witness_WriteInstructionBigEndian :
    0xFFE + 1 ≤ 0xFFF ∧ Memory.wf State.reset.mem = true ∧ 0xFFF < 0xFFF + 1 := by decide

theorem witness_FetchBigEndian :
    (atPc 0xFFE).pc.toNat ≤ 0xFFE ∧ (atPc 0xFFF).pc.toNat = 0xFFF ∧ 0xFFF < (atPc 0x1000).pc.toNat := by decide

theorem witness_EncodeOfDecode : decodeWord 0x8AB5 = .ok (.sub 0xA 0xB) := by decide

theorem witness_UnrecognisedWords : UnrecognisedWord 0x0000 ∧ ¬ UnrecognisedWord 0x00EE := by
  constructor
  · exact .inl (by decide)
  · unfold UnrecognisedWord; decide

theorem witness_DecoderMeetsOpcodeMap :
    wellFormedWord 0xF165 = true ∧ decodeWord 0xF165 = .ok (.ldm 0x1) ∧
      (⟨"LDM", 0xF065, 0xF0FF⟩ : OpcodeRow) ∈ opcodeRows := by decide

/-- At the highest address from which an instruction can be fetched. -/
theorem witness_StepRunsDecoded :
    ((atPc 0xFFE).withFetchWord 16 0x1200).pc.toNat ≤ 0xFFE ∧
      decode [memGet ((atPc 0xFFE).withFetchWord 16 0x1200).mem 0xFFE,
        memGet ((atPc 0xFFE).withFetchWord 16 0x1200).mem 0xFFF] = .ok (.jp 0x200, []) := by decide

theorem witness_StepReportsUnrecognised :
    (atPc 0xFFE).pc.toNat ≤ 0xFFE ∧ decodeWord (memGet (atPc 0xFFE).mem 0xFFE ++ memGet (atPc 0xFFE).mem 0xFFF) =
      .error .wordOfClassZero := by decide

theorem witness_JpResult : State.reset.pc.toNat = (0x200 : Addr12).toNat := by decide

/-- `V[0] + nnn` at the last address of the image and one past it (V40-10). -/
theorem witness_JpoResult :
    (withV [(0, 0x01)] State.reset).v[(0 : Fin 16)].toNat + (0xFFE : Addr12).toNat ≤ 0xFFF ∧
    0xFFF < (withV [(0, 0x01)] State.reset).v[(0 : Fin 16)].toNat + (0xFFF : Addr12).toNat := by decide

theorem witness_CallResult :
    ({ State.reset with sp := 14 } : State).sp ≠ 15 ∧ ({ State.reset with sp := 15 } : State).sp = 15 := by decide

/-- A state with `sp = 1` and slot 1 at `w`. -/
def oneCall (w : Word) : State := { State.reset with sp := 1, stack := State.reset.stack.set 1 w }

theorem witness_RetResult :
    ((oneCall 0x0FFF).sp ≠ 0 ∧ (oneCall 0x0FFF).stack[(oneCall 0x0FFF).sp].toNat ≤ 0xFFF) ∧ State.reset.sp = 0 ∧
    (oneCall 0x1000).sp ≠ 0 ∧ 0xFFF < (oneCall 0x1000).stack[(oneCall 0x1000).sp].toNat := by decide

/-- Slots on both sides of the dead one. -/
theorem witness_CallThenRet :
    ((atPc 0xFF5).sp ≠ 15 ∧ (atPc 0xFF5).pc.toNat ≤ 0xFFF) ∧ (0 : Fin 16).val ≠ (atPc 0xFF5).sp.val + 1 ∧
      (2 : Fin 16).val ≠ (atPc 0xFF5).sp.val + 1 := by decide

/-- The highest pc at which each form of a skip completes. -/
theorem witness_SeiResult :
    ((atPc 0xFFB).v[(3 : Fin 16)] = 0x00 ∧ (atPc 0xFFB).pc.toNat + 4 ≤ 0xFFF) ∧
    (atPc 0xFFD).v[(3 : Fin 16)] ≠ 0x01 ∧ (atPc 0xFFD).pc.toNat + 2 ≤ 0xFFF := by decide

theorem witness_SneiResult :
    ((atPc 0xFFB).v[(3 : Fin 16)] ≠ 0x01 ∧ (atPc 0xFFB).pc.toNat + 4 ≤ 0xFFF) ∧
    (atPc 0xFFD).v[(3 : Fin 16)] = 0x00 ∧ (atPc 0xFFD).pc.toNat + 2 ≤ 0xFFF := by decide

theorem witness_SerResult :
    ((atPc 0xFFB).v[(1 : Fin 16)] = (atPc 0xFFB).v[(2 : Fin 16)] ∧ (atPc 0xFFB).pc.toNat + 4 ≤ 0xFFF) ∧
    (withV [(1, 1)] (atPc 0xFFD)).v[(1 : Fin 16)] ≠ (withV [(1, 1)] (atPc 0xFFD)).v[(2 : Fin 16)] ∧
    (withV [(1, 1)] (atPc 0xFFD)).pc.toNat + 2 ≤ 0xFFF := by decide

/-- The highest pc at which an instruction that advances by 2 completes. -/
theorem witness_LdiResult : (atPc 0xFFD).pc.toNat + 2 ≤ 0xFFF := by decide

theorem witness_AddiResult : (atPc 0xFFD).pc.toNat + 2 ≤ 0xFFF := by decide

theorem witness_MovResult : (atPc 0xFFD).pc.toNat + 2 ≤ 0xFFF := by decide

theorem witness_BitwiseResults : (atPc 0xFFD).pc.toNat + 2 ≤ 0xFFF := by decide

/-- Operands of every clause: `x` other than `VF`, and `VF`. -/
theorem witness_AddResult : (atPc 0xFFD).pc.toNat + 2 ≤ 0xFFF ∧ (14 : Reg) ≠ 15 := by decide

/-- Operands of every clause: `VF` as neither, one and both of the operands. -/
theorem witness_SubResult :
    (atPc 0xFFD).pc.toNat + 2 ≤ 0xFFF ∧ ((14 : Reg) ≠ 15 ∧ (13 : Reg) ≠ 15) ∧ (15 : Reg) = 15 := by decide

theorem witness_SubnResult :
    (atPc 0xFFD).pc.toNat + 2 ≤ 0xFFF ∧ ((14 : Reg) ≠ 15 ∧ (13 : Reg) ≠ 15) ∧ (15 : Reg) = 15 := by decide

theorem witness_ShrResult : (atPc 0xFFD).pc.toNat + 2 ≤ 0xFFF ∧ (14 : Reg) ≠ 15 ∧ (15 : Reg) = 15 := by decide

theorem witness_ShlResult : (atPc 0xFFD).pc.toNat + 2 ≤ 0xFFF ∧ (14 : Reg) ≠ 15 ∧ (15 : Reg) = 15 := by decide

theorem witness_LdaResult : (atPc 0xFFD).pc.toNat + 2 ≤ 0xFFF := by decide

theorem witness_AddaResult : (atPc 0xFFD).pc.toNat + 2 ≤ 0xFFF := by decide

theorem witness_RndResult : (atPc 0xFFD).pc.toNat + 2 ≤ 0xFFF ∧ (0x0F : Byte).getLsbD 4 = false := by decide

theorem witness_GdtResult : (atPc 0xFFD).pc.toNat + 2 ≤ 0xFFF := by decide

theorem witness_TimerWriteResults : (atPc 0xFFD).pc.toNat + 2 ≤ 0xFFF := by decide

/-- A state with `I` at `w` and pc at `p`. -/
def atI (w p : Word) : State := { atPc p with i := w }

/-- `I = 0xFFD` is the highest legal base (R118). -/
theorem witness_BcdResult :
    (atI 0xFFD 0xFFD).i.toNat + 2 ≤ 0xFFF ∧ (atI 0xFFD 0xFFD).pc.toNat + 2 ≤ 0xFFF ∧
      Memory.wf (atI 0xFFD 0xFFD).mem = true := by decide

theorem witness_StmResult :
    (atI 0xFF0 0xFFD).i.toNat + (15 : Reg).val ≤ 0xFFF ∧ (atI 0xFF0 0xFFD).pc.toNat + 2 ≤ 0xFFF ∧
      Memory.wf (atI 0xFF0 0xFFD).mem = true := by decide

theorem witness_LdmResult :
    (atI 0xFF0 0xFFD).i.toNat + (15 : Reg).val ≤ 0xFFF ∧ (atI 0xFF0 0xFFD).pc.toNat + 2 ≤ 0xFFF := by decide

theorem witness_StmThenLdm :
    Memory.wf (atI 0xFF0 0x200).mem = true ∧ (atI 0xFF0 0x200).i.toNat + (15 : Reg).val ≤ 0xFFF ∧
      (atI 0xFF0 0x200).pc.toNat + 2 ≤ 0xFFF ∧ (atI 0xFF0 0xFFD).i = (atI 0xFF0 0x200).i ∧
      (atI 0xFF0 0xFFD).pc.toNat + 2 ≤ 0xFFF := by decide

/-- V47-14: `STM V1` at `0x200` with `I = 0x202`. -/
theorem witness_StoreVisibleToFetch :
    ∃ t, exec (.stm 1) (atI 0x202 0x200) = .next t ∧ Memory.wf (atI 0x202 0x200).mem = true ∧
      (1 : Reg).val = (0 : Reg).val + 1 ∧ (1 : Reg) ≤ 1 ∧
      t.pc.toNat = (atI 0x202 0x200).i.toNat + (0 : Reg).val :=
  ⟨_, rfl, by decide, by decide, by decide, by decide⟩

theorem witness_DataRangeFaults :
    0xFFF < (atI 0xFFE 0x200).i.toNat + 2 ∧ 0xFFF < (atI 0xFF1 0x200).i.toNat + (15 : Reg).val := by decide

theorem witness_PcTable :
    (∃ t, exec (.jp 0x300) State.reset = .next t) ∧ 0xFFF < pcAfter (.jpo 0xFFF) (withV [(0, 0x01)] State.reset) :=
  ⟨⟨_, rfl⟩, by decide⟩

theorem witness_FaultsExactly :
    ownFault .ret State.reset = some .stackUnderflow ∧
    (ownFault (.ldi 0 0x55) (atPc 0xFFE) = none ∧ 0xFFF < pcAfter (.ldi 0 0x55) (atPc 0xFFE)) ∧
    ownFault (.ldi 0 0x55) (atPc 0xFFD) = none ∧ pcAfter (.ldi 0 0x55) (atPc 0xFFD) ≤ 0xFFF := by decide

/-- One state for each kind of fault, and for `AddressOutOfRange` one for each of its causes: the fetch at `0xFFF` and
above it, the data range, the new pc. -/
theorem witness_StepFaultCauses :
    step State.reset = .fault (.unrecognizedInstruction 0x0000 0x0200) ∧
    step (State.reset.withFetchWord 16 0x00EE) = .fault .stackUnderflow ∧
    step (({ State.reset with sp := 15 } : State).withFetchWord 16 0x2ABC) = .fault .stackOverflow ∧
    step (atPc 0xFFF) = .fault (.addressOutOfRange 0x1000) ∧
    step (atPc 0x1000) = .fault (.addressOutOfRange 0x1000) ∧
    step (({ State.reset with i := 0x0FFE } : State).withFetchWord 16 0xF033) = .fault (.addressOutOfRange 0x1000) ∧
    step ((atPc 0xFFE).withFetchWord 16 0x6055) = .fault (.addressOutOfRange 0x1000) :=
  ⟨rfl, rfl, rfl, rfl, rfl, rfl, rfl⟩

theorem witness_FaultPersists :
    step State.reset = .fault (.unrecognizedInstruction 0x0000 0x0200) ∧
      ([.tick, .step, .step] : List HostOp).all isRunOp = true := ⟨rfl, by decide⟩

theorem witness_FaultLeavesBlock :
    (hostOp (.read 0x1000) (.live State.reset)).2 = .fault (.addressOutOfRange 0x1000) := by decide

/-- A flag writer that changes `VF`, with another destination. -/
theorem witness_FlagRegisterWriters :
    (∃ t, exec (.add 0 1) (withV [(0, 0xFF), (1, 0x01)] State.reset) = .next t ∧
      t.v[(15 : Fin 16)] ≠ (withV [(0, 0xFF), (1, 0x01)] State.reset).v[(15 : Fin 16)]) ∧ (0 : Reg) ≠ 15 :=
  ⟨⟨_, rfl, by decide⟩, by decide⟩

theorem witness_StackOwners :
    (∃ t, exec (.ldi 0 0x55) State.reset = .next t) ∧ (∀ nnn, Instr.ldi 0 0x55 ≠ .call nnn) ∧
      Instr.ldi 0 0x55 ≠ .ret := ⟨⟨_, rfl⟩, by simp, by simp⟩

theorem witness_TimerOwners :
    (∃ t, exec (.sdt 0) State.reset = .next t) ∧ (∃ t, exec (.sst 0) State.reset = .next t) ∧
    (∃ t, exec (.gdt 0) State.reset = .next t) ∧ ({ State.reset with dt := 1, st := 1 } : State).dt ≠ 0 ∧
    ({ State.reset with dt := 1, st := 1 } : State).st ≠ 0 ∧ ∀ x, Instr.sdt 0 ≠ .gdt x ∧ Instr.sst 0 ≠ .sdt x ∧ Instr.sdt 0 ≠ .sst x :=
  ⟨⟨_, rfl⟩, ⟨_, rfl⟩, ⟨_, rfl⟩, by decide, by decide, by simp⟩

theorem witness_RandomnessOnlyInRnd :
    (∀ x kk, Instr.ldi 0 0x55 ≠ .rnd x kk) ∧ ∃ t, exec (.ldi 0 0x55) State.reset = .next t := ⟨by simp, _, rfl⟩

/-- The largest program and one byte more (V70-3, V70-4). -/
theorem witness_LoadResult :
    (List.replicate 3584 (0x60 : Byte)).length ≤ 3584 ∧ Memory.wf State.reset.mem = true ∧
      3584 < (List.replicate 3585 (0x60 : Byte)).length := by
  rw [List.length_replicate, List.length_replicate]
  decide

theorem witness_BeforeResetRefused : HostOp.step ≠ .reset := by decide

/-- The invariant holds at reset, and in a state that has called (V40-5), and both can step. -/
theorem witness_StepKeepsInv :
    Inv (State.reset.withFetchWord 16 0x2ABC) ∧ ∃ t, step (State.reset.withFetchWord 16 0x2ABC) = .next t :=
  ⟨⟨by decide, by decide, by decide⟩, _, rfl⟩

theorem witness_RunsKeepInv :
    ([.reset, .load [0x12, 0x00], .step, .tick, .write 0xFFF 0x01] : List HostOp).all notSeed = true ∧
      BlockInv .unreset ∧ BlockInv (.live State.reset) ∧ BlockMemWf (.live State.reset) :=
  ⟨by decide, trivial, ⟨by decide, by decide, by decide⟩, by show Memory.wf State.reset.mem = true; decide⟩

theorem witness_RetOnlyUnderflows : Inv State.reset ∧ exec .ret State.reset = .fault .stackUnderflow :=
  ⟨⟨by decide, by decide, by decide⟩, rfl⟩

/-- V40-4: a jump to itself. -/
theorem witness_EndedRunStaysEnded :
    EndedAt 0x200 (State.reset.withFetchWord 16 0x1200) ∧ ([.step, .tick, .step] : List HostOp).all isRunOp = true :=
  ⟨⟨by decide, by decide⟩, by decide⟩

theorem witness_BootState : ([0x60, 0xFF, 0x12, 0x02] : List Byte).length ≤ 3584 := by decide

end Sys2Proof.Tests
end

section
/-! PROOFS. What one instruction and one operation of the block do to the invariant `Inv` and to the canonical form of
memory, and the one induction over a run of operations. -/

namespace Sys2Proof.Proofs

open Sys2Proof.Machine

/-! ## One instruction -/

/-- An instruction answers a next state exactly when it has no fault of its own and its new pc is in the image; the
state is then its effect with that pc. -/
theorem exec_next_iff (i : Instr) (s t : State) :
    exec i s = .next t ↔ ownFault i s = none ∧ pcAfter i s ≤ Config.maxAddress ∧
      t = setPc (effect i s) (BitVec.ofNat 16 (pcAfter i s)) := by
  rw [exec_shape]
  cases ownFault i s with
  | some f => simp
  | none => simp [commit_next_iff]

/-- The pc that a completed instruction leaves is the one of R15's table. -/
theorem exec_next_pc {i : Instr} {s t : State} (h : exec i s = .next t) : t.pc.toNat = pcAfter i s := by
  obtain ⟨-, hle, rfl⟩ := (exec_next_iff i s t).mp h
  exact commit_pc (commit_of_le (effect i s) hle)

/-- Without a range fault the whole data range lies in the image (R39). -/
theorem effAddr_lt_of_no_rangeFault {s : State} {k : Nat} (h : rangeFault s k = none) :
    effAddr s 0 + k < Config.memSize := by
  unfold rangeFault at h
  split at h
  · cases h
  · simp only [effAddr, Config.memSize]; omega

/-- An instruction without a fault of its own keeps the canonical form of memory: only `BCD` and `STM` write memory,
and their range was checked. -/
theorem effect_mem_wf {i : Instr} {s : State} (hf : ownFault i s = none) (hm : Memory.wf s.mem = true) :
    Memory.wf (effect i s).mem = true := by
  cases i
  case bcd x =>
    have := effAddr_lt_of_no_rangeFault hf
    exact storeBytes_wf hm (by rw [bcdDigits_length]; omega)
  case stm x =>
    have := effAddr_lt_of_no_rangeFault hf
    exact storeBytes_wf hm (by rw [firstRegs_length]; omega)
  all_goals exact hm

theorem exec_next_mem_wf {i : Instr} {s t : State} (h : exec i s = .next t) (hm : Memory.wf s.mem = true) :
    Memory.wf t.mem = true := by
  obtain ⟨hf, -, rfl⟩ := (exec_next_iff i s t).mp h
  exact effect_mem_wf hf hm

/-- Every live call-stack slot holds an address that an instruction can be fetched from (the last part of `Inv`). -/
def LiveSlotsFetchable (s : State) : Prop := ∀ j : Fin 16, 0 < j → j ≤ s.sp → s.stack[j].toNat ≤ 0xFFE

theorem inv_iff (s : State) :
    Inv s ↔ s.pc.toNat ≤ 0xFFF ∧ Memory.wf s.mem = true ∧ LiveSlotsFetchable s := Iff.rfl

/-- A push adds at most one live slot, and that holds the pushed address (R72). -/
theorem pushStack_liveSlotsFetchable {s : State} {w : Word} (hw : w.toNat ≤ 0xFFE) (hs : LiveSlotsFetchable s) :
    LiveSlotsFetchable (pushStack s w) := by
  intro j hpos hj
  by_cases hnew : j = s.sp + 1
  · subst hnew; simpa using hw
  · have hlt : j < s.sp + 1 := lt_of_le_of_ne hj hnew
    have hold : j ≤ s.sp := not_lt.mp fun h => (Fin.add_one_le_of_lt h).not_gt hlt
    have hslot : (pushStack s w).stack[j] = s.stack[j] :=
      Vector.getElem_set_ne (s.sp + 1).isLt j.isLt fun h => hnew (Fin.ext h.symm)
    rw [hslot]
    exact hs j hpos hold

/-- A pop from a stack that is not empty leaves fewer live slots (R70). -/
theorem popStack_liveSlotsFetchable {s : State} (hsp : s.sp ≠ 0) (hs : LiveSlotsFetchable s) :
    LiveSlotsFetchable (popStack s) := by
  intro j hpos hj
  have hlt : s.sp - 1 < s.sp := Fin.sub_one_lt_iff.mpr (Fin.pos_of_ne_zero hsp)
  exact hs j hpos (hj.trans hlt.le)

/-- An instruction that was fetched and has no fault of its own keeps the live slots fetchable: only `CALL` and `RET`
touch the call stack (R16), and the address pushed is that of the fetched `CALL`. -/
theorem effect_liveSlotsFetchable {i : Instr} {s : State} (hpc : s.pc.toNat ≤ 0xFFE) (hf : ownFault i s = none)
    (hs : LiveSlotsFetchable s) : LiveSlotsFetchable (effect i s) := by
  cases i
  case ret =>
    have hsp : s.sp ≠ 0 := fun h => by simp [ownFault, h] at hf
    exact popStack_liveSlotsFetchable hsp hs
  case call nnn => exact pushStack_liveSlotsFetchable hpc hs
  all_goals exact hs

theorem exec_next_inv {i : Instr} {s t : State} (hpc : s.pc.toNat ≤ 0xFFE) (h : exec i s = .next t) (hi : Inv s) :
    Inv t := by
  obtain ⟨-, hm, hs⟩ := (inv_iff s).mp hi
  have hm' := exec_next_mem_wf h hm
  have hpc' := exec_next_pc h
  obtain ⟨hf, hle, rfl⟩ := (exec_next_iff i s t).mp h
  exact ⟨hpc'.trans_le hle, hm', effect_liveSlotsFetchable hpc hf hs⟩

/-! ## One step -/

/-- A fetched instruction lies in the image with both its bytes. -/
theorem fetchInstr_ok_pc {s : State} {i : Instr} (h : fetchInstr s = .ok i) : s.pc.toNat ≤ 0xFFE := by
  obtain ⟨w, hw, -⟩ := (fetchInstr_ok_iff s i).mp h
  have hle := (fetchWord_ok hw).1
  simp only [Config.maxAddress] at hle
  omega

theorem step_next_inv {s t : State} (h : step s = .next t) (hi : Inv s) : Inv t := by
  obtain ⟨i, hfetch, hexec⟩ := step_next h
  exact exec_next_inv (fetchInstr_ok_pc hfetch) hexec hi

theorem step_next_mem_wf {s t : State} (h : step s = .next t) (hm : Memory.wf s.mem = true) :
    Memory.wf t.mem = true := by
  obtain ⟨i, -, hexec⟩ := step_next h
  exact exec_next_mem_wf hexec hm

/-! ## One operation of the block -/

/-- The changes an operation can make to a block that has been reset. `load` and the write side of the memory port are
one change: a run of bytes stored inside the image. -/
inductive OpChange (s : State) : HostOp → State → Prop where
  | kept (op : HostOp) : OpChange s op s
  | reset : OpChange s .reset (resetBlock s)
  | stepped {t : State} (h : step s = .next t) : OpChange s .step t
  | ticked : OpChange s .tick (tick s)
  | stored (op : HostOp) {a : Nat} {us : List Byte} (h : a + us.length ≤ Config.memSize) :
      OpChange s op (setMem s (storeBytes s.mem a us))
  | seeded (t : State) : OpChange s (.seed t) (seedState s t)

/-- An operation that answers an `Outcome` changes the block only where it answers a next state (R135). -/
theorem settle_change {s : State} {op : HostOp} {r : Result} (h : ∀ t, r = .next t → OpChange s op t) :
    ∃ t, (settle s r).1 = .live t ∧ OpChange s op t := by
  cases r with
  | next t => exact ⟨t, rfl, h t rfl⟩
  | fault f => exact ⟨s, rfl, .kept op⟩
  | refused q => exact ⟨s, rfl, .kept op⟩

/-- A write through the port changes the block only where it succeeds (R135). -/
theorem settleWrite_change {s : State} {op : HostOp} {r : Except Fault State}
    (h : ∀ t, r = .ok t → OpChange s op t) : ∃ t, (settleWrite s r).1 = .live t ∧ OpChange s op t := by
  cases r with
  | ok t => exact ⟨t, rfl, h t rfl⟩
  | error f => exact ⟨s, rfl, .kept op⟩

theorem load_change {s t : State} {bytes : List Byte} (h : load s bytes = .next t) :
    OpChange s (.load bytes) t := by
  obtain ⟨hlen, rfl⟩ := (load_next_iff s t bytes).mp h
  refine .stored _ ?_
  simp only [Config.maxProgram] at hlen
  simp only [Config.entry, Config.memSize]
  omega

theorem memWrite_change {s t : State} {a : Nat} {b : Byte} (h : memWrite s a b = .ok t) :
    OpChange s (.write a b) t := by
  unfold memWrite at h
  split at h
  case isTrue ha =>
    cases h
    exact .stored (us := [b]) _ (Nat.succ_le_succ ha)
  case isFalse => cases h

theorem writeInstruction_change {s t : State} {a : Nat} {w : Word} (h : writeInstruction s a w = .ok t) :
    OpChange s (.writeInstruction a w) t := by
  unfold writeInstruction at h
  split at h
  case isTrue ha =>
    cases h
    exact .stored _ (Nat.succ_le_succ ha)
  case isFalse => cases h

/-- A reset block stays reset, and each operation makes one of the listed changes to it. -/
theorem hostOp_live_change (op : HostOp) (s : State) : ∃ t, (hostOp op (.live s)).1 = .live t ∧ OpChange s op t := by
  cases op with
  | reset => exact ⟨_, rfl, .reset⟩
  | load bytes => exact settle_change fun _ => load_change
  | step => exact settle_change fun _ => .stepped
  | tick => exact ⟨_, rfl, .ticked⟩
  | read a =>
    refine ⟨s, ?_, .kept _⟩
    simp only [hostOp, liveOp]
    cases memRead s a <;> rfl
  | write a b => exact settleWrite_change fun _ => memWrite_change
  | writeInstruction a w => exact settleWrite_change fun _ => writeInstruction_change
  | seed t => exact ⟨_, rfl, .seeded t⟩
  | inspect => exact ⟨s, rfl, .kept _⟩

/-- Before the first reset an operation leaves the block as it is or resets it (R21). -/
theorem hostOp_unreset_cases (op : HostOp) :
    (hostOp op .unreset).1 = .unreset ∨ (hostOp op .unreset).1 = .live State.reset := by
  cases op
  case reset => exact .inr rfl
  all_goals exact .inl rfl

theorem resetBlock_inv (s : State) : Inv (resetBlock s) := by
  refine ⟨by simp [Config.entry], rfl, fun j hpos hj => ?_⟩
  exact absurd (hpos.trans_le hj) (lt_irrefl 0)

theorem state_reset_inv : Inv State.reset := resetBlock_inv State.reset

/-- Every change but raw seeding keeps the invariant. -/
theorem OpChange.inv {s t : State} {op : HostOp} (h : OpChange s op t) (hop : notSeed op = true) (hi : Inv s) :
    Inv t := by
  cases h with
  | kept => exact hi
  | reset => exact resetBlock_inv s
  | stepped h => exact step_next_inv h hi
  | ticked => exact hi
  | stored _ h =>
    obtain ⟨hpc, hm, hs⟩ := hi
    exact ⟨hpc, storeBytes_wf hm h, hs⟩
  | seeded => cases hop

/-- Every change, raw seeding included, keeps the canonical form of memory. -/
theorem OpChange.mem_wf {s t : State} {op : HostOp} (h : OpChange s op t) (hm : Memory.wf s.mem = true) :
    Memory.wf t.mem = true := by
  cases h with
  | kept => exact hm
  | reset => rfl
  | stepped h => exact step_next_mem_wf h hm
  | ticked => exact hm
  | stored _ h => exact storeBytes_wf hm h
  | seeded t => exact canonicalMem_wf t.mem

theorem hostOp_blockInv {op : HostOp} (hop : notSeed op = true) {b : Block} (hb : BlockInv b) :
    BlockInv (hostOp op b).1 := by
  cases b with
  | unreset =>
    rcases hostOp_unreset_cases op with h | h
    · rw [h]; trivial
    · rw [h]; exact state_reset_inv
  | live s =>
    obtain ⟨t, ht, hchange⟩ := hostOp_live_change op s
    rw [ht]
    exact hchange.inv hop hb

theorem hostOp_blockMemWf (op : HostOp) {b : Block} (hb : BlockMemWf b) : BlockMemWf (hostOp op b).1 := by
  cases b with
  | unreset =>
    rcases hostOp_unreset_cases op with h | h
    · rw [h]; trivial
    · rw [h]; exact rfl
  | live s =>
    obtain ⟨t, ht, hchange⟩ := hostOp_live_change op s
    rw [ht]
    exact hchange.mem_wf hb

/-! ## A run of operations -/

/-- What each operation of the list keeps, the run keeps. -/
theorem runHost_keeps {P : Block → Prop} {ops : List HostOp} (hop : ∀ op ∈ ops, ∀ b, P b → P (hostOp op b).1)
    {b : Block} (hb : P b) : P (runHost ops b).1 := by
  induction ops generalizing b with
  | nil => exact hb
  | cons op ops ih =>
    have hfirst : P (hostOp op b).1 := hop op List.mem_cons_self b hb
    exact ih (fun o ho => hop o (List.mem_cons_of_mem op ho)) hfirst

/-- Settles O57: each operation keeps each of the two predicates of the block, so every run does. -/
theorem runsKeepInv : Obligations.RunsKeepInv := by
  refine ⟨fun ops b hall hb => ?_, fun ops b hb => ?_⟩
  · exact runHost_keeps (fun op hmem _ => hostOp_blockInv (List.all_eq_true.mp hall op hmem)) hb
  · exact runHost_keeps (fun op _ _ => hostOp_blockMemWf op) hb

end Sys2Proof.Proofs
end

section
/-! PROOFS. What a completed instruction does to the single pieces of the state: the step's invariant and R15's pc, the
writers of `VF`, and the owners of the call stack and of the timers. Each is read off `effect`, case by case over the
instructions. -/

namespace Sys2Proof.Proofs

open Sys2Proof.Machine

/-! ## The invariant at reset and over one step, the block before its first reset -/

/-- Settles O56: the fetch bounds the address a `CALL` pushes, and what was fetched keeps each part of `Inv`. -/
theorem stepKeepsInv : Obligations.StepKeepsInv := fun _ _ hi h => step_next_inv h hi

/-- Settles O55: the reset state has an empty call stack and empty memory. -/
theorem invAtReset : Obligations.InvAtReset := state_reset_inv

/-- Settles O54: `reset` is the one operation that the unreset block has a meaning for. -/
theorem beforeResetRefused : Obligations.BeforeResetRefused := by
  intro op hne
  cases op
  case reset => exact absurd rfl hne
  all_goals rfl

/-! ## The pc -/

/-- An instruction without a fault of its own faults where its new pc is outside the image, and names it. -/
theorem exec_of_pcAfter_gt {i : Instr} {s : State} (hf : ownFault i s = none)
    (h : Config.maxAddress < pcAfter i s) : exec i s = .fault (.addressOutOfRange (pcAfter i s)) := by
  rw [exec_shape, hf]
  exact commit_of_gt (effect i s) h

/-- Settles O41: an answered state was committed at R15's pc, and `JPO` has no fault but that of the bound check. -/
theorem pcTable : Obligations.PcTable :=
  ⟨fun _ _ _ h => exec_next_pc h, fun _ _ h => ⟨_, exec_of_pcAfter_gt rfl h⟩⟩

/-! ## The flag register -/

/-- A register write changes `VF` only where `VF` is the destination. -/
theorem eq_flagReg_of_setV_changes {s : State} {x : Reg} {b : Byte}
    (h : (setV s x b).v[(15 : Fin 16)] ≠ s.v[(15 : Fin 16)]) : x = 15 := by
  by_contra hx
  exact h (getV_setV_other s (Ne.symm hx) b)

/-- `LDM` changes `VF` only where the last register it loads is `VF`. -/
theorem eq_flagReg_of_loadRegs_changes {s : State} {a : Nat} {x : Reg}
    (h : (loadRegs s a x).v[(15 : Fin 16)] ≠ s.v[(15 : Fin 16)]) : x = 15 := by
  by_contra hx
  have hlt : ¬ (15 : Fin 16) ≤ x := fun hle => hx (Fin.last_le_iff.mp hle)
  exact h ((getV_loadRegs s a x 15).trans (if_neg hlt))

/-- The writers of `VF` as a table: the five flag writers, and the instructions with a destination register where that
is `VF` (R12). -/
def writesFlagReg : Instr → Prop
  | .add _ _ | .sub _ _ | .subn _ _ | .shr _ _ | .shl _ _ => True
  | .ldi x _ | .addi x _ | .mov x _ | .or x _ | .and x _ | .xor x _ | .rnd x _ | .gdt x | .ldm x => x = 15
  | .ret | .jp _ | .call _ | .sei _ _ | .snei _ _ | .ser _ _ | .lda _ | .jpo _ | .sdt _ | .sst _ | .adda _ | .bcd _
  | .stm _ => False

theorem writesFlagReg_of_effect_changes {i : Instr} {s : State}
    (h : (effect i s).v[(15 : Fin 16)] ≠ s.v[(15 : Fin 16)]) : writesFlagReg i := by
  cases i
  case add | sub | subn | shr | shl => trivial
  case ldi | addi | mov | or | and | xor | gdt => exact eq_flagReg_of_setV_changes h
  case rnd => exact eq_flagReg_of_setV_changes (s := countDraw s) h
  case ldm => exact eq_flagReg_of_loadRegs_changes h
  all_goals exact h rfl

/-- The table of writers is the list that R12 gives. -/
theorem writesFlagReg_cases {i : Instr} (h : writesFlagReg i) :
    (∃ x y, i = .add x y ∨ i = .sub x y ∨ i = .subn x y ∨ i = .shr x y ∨ i = .shl x y) ∨
      (∃ kk, i = .ldi 15 kk ∨ i = .addi 15 kk ∨ i = .rnd 15 kk) ∨
      (∃ y, i = .mov 15 y ∨ i = .or 15 y ∨ i = .and 15 y ∨ i = .xor 15 y) ∨ i = .gdt 15 ∨ i = .ldm 15 := by
  cases i
  case add | sub | subn | shr | shl => simp
  case ldi | addi | mov | or | and | xor | rnd | gdt | ldm => obtain rfl := h; simp
  all_goals exact h.elim

/-- A byte that is at most 1 is one of the two flags (R12). -/
theorem eq_zero_or_one_of_toNat_le {b : Byte} (h : b.toNat ≤ 1) : b = 0x00 ∨ b = 0x01 :=
  (Nat.le_one_iff_eq_zero_or_eq_one.mp h).imp BitVec.eq_of_toNat_eq BitVec.eq_of_toNat_eq

theorem flagByte_eq_zero_or_one (c : Bool) : flagByte c = 0x00 ∨ flagByte c = 0x01 := by
  cases c
  · exact .inl rfl
  · exact .inr rfl

theorem shiftedOutRight_eq_zero_or_one (a : Byte) : shiftedOutRight a = 0x00 ∨ shiftedOutRight a = 0x01 := by
  apply eq_zero_or_one_of_toNat_le
  rw [shiftedOutRight_toNat]
  omega

theorem shiftedOutLeft_eq_zero_or_one (a : Byte) : shiftedOutLeft a = 0x00 ∨ shiftedOutLeft a = 0x01 := by
  apply eq_zero_or_one_of_toNat_le
  rw [shiftedOutLeft_toNat]
  have := a.isLt
  omega

/-- A flag written first stays where the second write has another destination. -/
theorem flagReg_of_setV_setV {s : State} {x : Reg} (hx : x ≠ 15) (f b : Byte) :
    (setV (setV s 15 f) x b).v[(15 : Fin 16)] = f :=
  (getV_setV_other _ hx.symm b).trans (getV_setV_same s 15 f)

/-- A flag writer with another destination than `VF` leaves its flag there, 0 or 1 (R95 to R99). -/
theorem effect_flagReg_eq_zero_or_one {i : Instr} {x y : Reg} (s : State) (hx : x ≠ 15)
    (hi : i = .add x y ∨ i = .sub x y ∨ i = .subn x y ∨ i = .shr x y ∨ i = .shl x y) :
    (effect i s).v[(15 : Fin 16)] = 0x00 ∨ (effect i s).v[(15 : Fin 16)] = 0x01 := by
  rcases hi with rfl | rfl | rfl | rfl | rfl
  · have hflag : (effect (.add x y) s).v[(15 : Fin 16)] = carryFlag (getV s x) (getV s y) := getV_setV_same _ 15 _
    rw [hflag]
    exact flagByte_eq_zero_or_one _
  · rw [effect, flagReg_of_setV_setV hx]
    exact flagByte_eq_zero_or_one _
  · rw [effect, flagReg_of_setV_setV hx]
    exact flagByte_eq_zero_or_one _
  · rw [effect, flagReg_of_setV_setV hx]
    exact shiftedOutRight_eq_zero_or_one _
  · rw [effect, flagReg_of_setV_setV hx]
    exact shiftedOutLeft_eq_zero_or_one _

/-- Settles O48: the commit writes pc alone, so both clauses are those of the effect. -/
theorem flagRegisterWriters : Obligations.FlagRegisterWriters := by
  intro i s t h
  obtain ⟨-, -, rfl⟩ := (exec_next_iff i s t).mp h
  exact ⟨fun hv => writesFlagReg_cases (writesFlagReg_of_effect_changes hv),
    fun _ _ hx hi => effect_flagReg_eq_zero_or_one s hx hi⟩

/-! ## The same instruction in a state that differs in one field -/

/-- Where a changed state has the same fault and new pc, and its effect is the old one changed by `g`, the instruction
answers the old next state changed by `g`. -/
theorem exec_next_of_effect_eq {i : Instr} {s s' t : State} (g : State → State) (h : exec i s = .next t)
    (hf : ownFault i s' = ownFault i s) (hp : pcAfter i s' = pcAfter i s) (he : effect i s' = g (effect i s))
    (hg : ∀ u w, setPc (g u) w = g (setPc u w)) : exec i s' = .next (g t) := by
  obtain ⟨hnone, hle, rfl⟩ := (exec_next_iff i s t).mp h
  rw [exec_next_iff, hf, hp, he, hg]
  exact ⟨hnone, hle, rfl⟩

/-! ## The call stack -/

theorem effect_stackKept {i : Instr} (s : State) (hcall : ∀ nnn, i ≠ .call nnn) (hret : i ≠ .ret) :
    StackKept s (effect i s) := by
  cases i
  case call nnn => exact absurd rfl (hcall nnn)
  case ret => exact absurd rfl hret
  all_goals exact ⟨rfl, fun _ => rfl⟩

/-- Without an overflow, the slot that `CALL` writes is not slot 0 (R16, R72). -/
theorem sp_add_one_ne_zero {nnn : Addr12} {s : State} (hf : ownFault (.call nnn) s = none) : s.sp + 1 ≠ 0 := by
  have hsp : s.sp ≠ 15 := fun h => by simp [ownFault, h] at hf
  omega

/-- Without an underflow, the slot that `RET` reads is not slot 0 (R16, R70). -/
theorem sp_ne_zero {s : State} (hf : ownFault .ret s = none) : s.sp ≠ 0 := fun h => by simp [ownFault, h] at hf

theorem setStack_get_other (s : State) {j k : Fin 16} (h : k ≠ j) (w : Word) :
    (setStack s j w).stack[k] = s.stack[k] :=
  Vector.getElem_set_ne j.isLt k.isLt fun he => h (Fin.ext he.symm)

theorem setStack_comm (s : State) {j k : Fin 16} (h : j ≠ k) (w u : Word) :
    setStack (setStack s j w) k u = setStack (setStack s k u) j w := by
  simp only [setStack, Vector.set_comm w u (Fin.val_ne_of_ne h)]

theorem effect_slot_zero {i : Instr} {s : State} (hf : ownFault i s = none) :
    (effect i s).stack[(0 : Fin 16)] = s.stack[(0 : Fin 16)] := by
  cases i
  case call => exact setStack_get_other (setSp s (s.sp + 1)) (sp_add_one_ne_zero hf).symm s.pc
  all_goals rfl

theorem ownFault_setStack (i : Instr) (s : State) (j : Fin 16) (w : Word) :
    ownFault i (setStack s j w) = ownFault i s := by cases i <;> rfl

/-- The one instruction that takes its new pc from the stack does not take it from slot 0. -/
theorem pcAfter_setStack_zero {i : Instr} {s : State} (hf : ownFault i s = none) (w : Word) :
    pcAfter i (setStack s 0 w) = pcAfter i s := by
  cases i
  case ret => exact congrArg BitVec.toNat (setStack_get_other s (sp_ne_zero hf) w)
  all_goals rfl

theorem effect_setStack_zero {i : Instr} {s : State} (hf : ownFault i s = none) (w : Word) :
    effect i (setStack s 0 w) = setStack (effect i s) 0 w := by
  cases i
  case call => exact setStack_comm (setSp s (s.sp + 1)) (sp_add_one_ne_zero hf).symm w s.pc
  all_goals rfl

/-- Settles O49: `CALL` and `RET` alone have an effect on the stack, and without a fault neither meets slot 0. -/
theorem stackOwners : Obligations.StackOwners := by
  intro i s t h
  obtain ⟨hf, -, ht⟩ := (exec_next_iff i s t).mp h
  refine ⟨fun hcall hret => ?_, ?_, fun w => ?_⟩
  · subst ht; exact effect_stackKept s hcall hret
  · subst ht; exact effect_slot_zero hf
  · exact exec_next_of_effect_eq (setStack · 0 w) h (ownFault_setStack i s 0 w) (pcAfter_setStack_zero hf w)
      (effect_setStack_zero hf w) fun _ _ => rfl

/-! ## The timers -/

theorem effect_dt {i : Instr} (s : State) (hi : ∀ x, i ≠ .sdt x) : (effect i s).dt = s.dt := by
  cases i
  case sdt x => exact absurd rfl (hi x)
  all_goals rfl

theorem effect_st {i : Instr} (s : State) (hi : ∀ x, i ≠ .sst x) : (effect i s).st = s.st := by
  cases i
  case sst x => exact absurd rfl (hi x)
  all_goals rfl

theorem ownFault_setDt (i : Instr) (s : State) (b : Byte) : ownFault i (setDt s b) = ownFault i s := by
  cases i <;> rfl

theorem ownFault_setSt (i : Instr) (s : State) (b : Byte) : ownFault i (setSt s b) = ownFault i s := by
  cases i <;> rfl

theorem pcAfter_setDt (i : Instr) (s : State) (b : Byte) : pcAfter i (setDt s b) = pcAfter i s := by
  cases i <;> rfl

theorem pcAfter_setSt (i : Instr) (s : State) (b : Byte) : pcAfter i (setSt s b) = pcAfter i s := by
  cases i <;> rfl

/-- `GDT` alone reads `DT`: the effect of any other instruction differs with it in `DT` at most. -/
theorem effect_setDt {i : Instr} (s : State) (hi : ∀ x, i ≠ .gdt x) (b : Byte) :
    effect i (setDt s b) = setDt (effect i s) (effect i (setDt s b)).dt := by
  cases i
  case gdt x => exact absurd rfl (hi x)
  all_goals rfl

/-- No instruction reads `ST`. -/
theorem effect_setSt (i : Instr) (s : State) (b : Byte) :
    effect i (setSt s b) = setSt (effect i s) (effect i (setSt s b)).st := by
  cases i <;> rfl

theorem exec_setDt {i : Instr} {s t : State} (h : exec i s = .next t) (hi : ∀ x, i ≠ .gdt x) (b : Byte) :
    ∃ d, exec i (setDt s b) = .next (setDt t d) :=
  ⟨_, exec_next_of_effect_eq (setDt · _) h (ownFault_setDt i s b) (pcAfter_setDt i s b) (effect_setDt s hi b)
    fun _ _ => rfl⟩

theorem exec_setSt {i : Instr} {s t : State} (h : exec i s = .next t) (b : Byte) :
    ∃ d, exec i (setSt s b) = .next (setSt t d) :=
  ⟨_, exec_next_of_effect_eq (setSt · _) h (ownFault_setSt i s b) (pcAfter_setSt i s b) (effect_setSt i s b)
    fun _ _ => rfl⟩

theorem tickTimer_lt {b : Byte} (h : b ≠ 0) : (tickTimer b).toNat < b.toNat := by
  have hpos : b.toNat ≠ 0 := fun hz => h (BitVec.eq_of_toNat_eq hz)
  rw [tickTimer_toNat]
  omega

/-- Settles O50: the owner of each timer is read off the effect, and `tick` writes the timers alone. -/
theorem timerOwners : Obligations.TimerOwners := by
  refine ⟨fun i s t h => ?_, fun s => ⟨rfl, tickTimer_lt, tickTimer_lt⟩⟩
  obtain ⟨-, -, ht⟩ := (exec_next_iff i s t).mp h
  refine ⟨?_, fun hi => ?_, ?_, fun hi => ?_, ?_, fun b hi => exec_setDt h hi b, fun b => exec_setSt h b⟩
  · rintro x rfl; subst ht; rfl
  · subst ht; exact effect_dt s hi
  · rintro x rfl; subst ht; rfl
  · subst ht; exact effect_st s hi
  · rintro x rfl; subst ht; exact getV_setV_same s x s.dt

end Sys2Proof.Proofs
end

section
/-! PROOFS. The memory port inside and outside the image (20_memory.md R31 to R34), the bytes that `STM` leaves for the
next fetch (R43), and the range fault of the memory instructions (R39). -/

namespace Sys2Proof.Proofs

open Sys2Proof.Machine

/-! ## The memory port -/

/-- A write through the port is a run of one byte. -/
theorem memWrite_of_le (s : State) {a : Nat} (h : a ≤ Config.maxAddress) (b : Byte) :
    memWrite s a b = .ok (setMem s (storeBytes s.mem a [b])) := if_pos h

theorem memWrite_of_gt (s : State) {a : Nat} (h : Config.maxAddress < a) (b : Byte) :
    memWrite s a b = .error (.addressOutOfRange a) := if_neg (not_le_of_gt h)

theorem writeInstruction_of_le (s : State) {a : Nat} (h : a + 1 ≤ Config.maxAddress) (w : Word) :
    writeInstruction s a w = .ok (setMem s (storeBytes s.mem a [highByte w, lowByte w])) := if_pos h

theorem writeInstruction_of_gt (s : State) {a : Nat} (h : Config.maxAddress < a + 1) (w : Word) :
    writeInstruction s a w = .error (.addressOutOfRange (max a Config.memSize)) := if_neg (not_le_of_gt h)

theorem hostOp_read_of_le (s : State) {a : Nat} (h : a ≤ Config.maxAddress) :
    hostOp (.read a) (.live s) = (.live s, .byte (memGet s.mem a)) := by
  simp [hostOp, liveOp, memRead_of_le s h]

theorem hostOp_read_of_gt (s : State) {a : Nat} (h : Config.maxAddress < a) :
    hostOp (.read a) (.live s) = (.live s, .fault (.addressOutOfRange a)) := by
  simp [hostOp, liveOp, memRead_of_gt s h]

/-- A write of an instruction that faults leaves the block as it was (R135, D4). -/
theorem hostOp_writeInstruction_of_error {s : State} {a : Nat} {w : Word} {f : Fault}
    (h : writeInstruction s a w = .error f) :
    hostOp (.writeInstruction a w) (.live s) = (.live s, .fault f) := congrArg (settleWrite s) h

/-- The frame of a stored run of bytes. -/
theorem memKeptOutside_storeBytes (s : State) (a : Nat) (us : List Byte) :
    MemKeptOutside a us.length s (setMem s (storeBytes s.mem a us)) :=
  fun _ => memGet_storeBytes_outside s.mem

theorem setMem_restore (s : State) (m : Memory) : { setMem s m with mem := s.mem } = s := rfl

theorem highByte_toNat (w : Word) : (highByte w).toNat = w.toNat / 256 := by
  have hhigh : (highByte w).toNat = w.toNat / 2 ^ 8 % 2 ^ 8 := slice_toNat w 8 8
  omega

theorem lowByte_toNat (w : Word) : (lowByte w).toNat = w.toNat % 256 := fieldKK_toNat w

/-- Settles O2: the two sides of the port's bound, for the read and for the block. -/
theorem memReadPort : Obligations.MemReadPort := fun s _ =>
  ⟨fun hin => ⟨memRead_of_le s hin, hostOp_read_of_le s hin⟩,
    fun hout => ⟨memRead_of_gt s hout, hostOp_read_of_gt s hout⟩⟩

/-- Settles O3: inside the image a write is a stored run of one byte. -/
theorem memWritePort : Obligations.MemWritePort := by
  refine fun s a b => ⟨fun hin => ?_, fun hout => memWrite_of_gt s hout b⟩
  refine ⟨_, memWrite_of_le s hin b, fun hm => ?_, memKeptOutside_storeBytes s a [b], setMem_restore s _⟩
  exact memGet_memSet_same hm a b

/-- Settles O4: inside the image the write is a stored run of the word's two bytes, the most significant first. -/
theorem writeInstructionBigEndian : Obligations.WriteInstructionBigEndian := by
  refine fun s a w => ⟨fun hin => ?_, fun hout => ?_⟩
  · refine ⟨_, writeInstruction_of_le s hin w, memKeptOutside_storeBytes s a [highByte w, lowByte w],
      setMem_restore s _, fun hm => ?_⟩
    have hrange : a + [highByte w, lowByte w].length ≤ Config.memSize := Nat.succ_le_succ hin
    have hfirst := memGet_storeBytes_inside hm hrange (k := 0) Nat.zero_lt_two
    have hsecond := memGet_storeBytes_inside hm hrange (k := 1) Nat.one_lt_two
    exact ⟨(congrArg BitVec.toNat hfirst).trans (highByte_toNat w),
      (congrArg BitVec.toNat hsecond).trans (lowByte_toNat w)⟩
  · have hfault := writeInstruction_of_gt s hout w
    exact ⟨hfault, hostOp_writeInstruction_of_error hfault⟩

/-! ## The fetch -/

/-- A fault of the fetch is the fault of the step (R50 step 1). -/
theorem step_of_fetchWord_error {s : State} {f : Fault} (h : fetchWord s = .error f) : step s = .fault f :=
  step_of_fetch_error ((fetchInstr_error_iff s f).mpr (.inl h))

/-- Settles O5: the fetch in its three ranges of pc. -/
theorem fetchBigEndian : Obligations.FetchBigEndian := by
  refine fun s => ⟨fun hin => ?_, fun htop => ?_, fun hout => ?_⟩
  · exact ⟨_, fetchWord_of_le s (Nat.succ_le_succ hin), wordOfBytes_toNat _ _⟩
  · exact step_of_fetchWord_error (fetchWord_at_top s htop)
  · exact step_of_fetchWord_error (fetchWord_of_gt s hout)

/-! ## The data range of the memory instructions -/

/-- `STM` stores `V[k]` at `I + k` for every `k` up to `x` (R119). -/
theorem exec_stm_memGet {x : Reg} {s t : State} (h : exec (.stm x) s = .next t) (hm : Memory.wf s.mem = true)
    {k : Reg} (hk : k ≤ x) : memGet t.mem (s.i.toNat + k.val) = s.v[k] := by
  obtain ⟨hf, -, rfl⟩ := (exec_next_iff _ s t).mp h
  have hrange := effAddr_lt_of_no_rangeFault hf
  have hlen : k.val < (firstRegs s x).length := by rw [firstRegs_length]; exact Nat.lt_succ_of_le hk
  calc memGet (storeBytes s.mem (effAddr s 0) (firstRegs s x)) (effAddr s 0 + k.val)
      = (firstRegs s x)[k.val] := memGet_storeBytes_inside hm (by rw [firstRegs_length]; omega) hlen
    _ = s.v[k] := firstRegs_getElem s x k.val hlen

/-- Settles O39: both bytes of the fetched word lie in the stored range, hence in the image. -/
theorem storeVisibleToFetch : Obligations.StoreVisibleToFetch := by
  intro x j k s t hm h hjk hkx hpc
  have hjx : j ≤ x := le_trans (Fin.le_def.mpr (by omega)) hkx
  have hnext : t.pc.toNat + 1 = s.i.toNat + k.val := by omega
  have hin : t.pc.toNat + 1 ≤ Config.maxAddress := by
    obtain ⟨hf, -, -⟩ := (exec_next_iff _ s t).mp h
    have hrange : s.i.toNat + x.val < 0x1000 := effAddr_lt_of_no_rangeFault hf
    have hle : k.val ≤ x.val := hkx
    simp only [Config.maxAddress]
    omega
  rw [fetchWord_of_le t hin, hnext, hpc, exec_stm_memGet h hm hjx, exec_stm_memGet h hm hkx]
  rfl

/-- An instruction's own fault is its result, whatever its new pc (R134). -/
theorem exec_of_ownFault {i : Instr} {s : State} {f : Fault} (h : ownFault i s = some f) : exec i s = .fault f := by
  rw [exec_shape, h]

theorem rangeFault_of_gt {s : State} {k : Nat} (h : 0xFFF < s.i.toNat + k) :
    rangeFault s k = some (.addressOutOfRange (max s.i.toNat 0x1000)) := if_pos h

/-- Settles O40: the range fault is the own fault of all three instructions. -/
theorem dataRangeFaults : Obligations.DataRangeFaults := fun _ _ =>
  ⟨fun h => exec_of_ownFault (rangeFault_of_gt h), fun h => exec_of_ownFault (rangeFault_of_gt h),
    fun h => exec_of_ownFault (rangeFault_of_gt h)⟩

end Sys2Proof.Proofs
end

section
/-! PROOFS. The decoder of 30_encoding.md R55 against the encoder of R53, against R58's list of unrecognised words and
against the mask and match columns of R56. A word is handled by its class `w.toNat / 4096` and, below the class, by its
bottom nibble or low byte. -/

namespace Sys2Proof.Proofs

open Sys2Proof.Machine

/-! ## A word is laid out from its own fields (R53) -/

theorem wordA_of_class {w : Word} {c : Nibble} (hc : (fieldClass w).toNat = c.toNat) : wordA c (fieldNNN w) = w := by
  apply BitVec.eq_of_toNat_eq
  rw [wordA_toNat, ← hc, fieldClass_toNat, fieldNNN_toNat]
  omega

theorem wordI_of_class {w : Word} {c : Nibble} {kk : Byte} (hc : (fieldClass w).toNat = c.toNat)
    (hkk : (fieldKK w).toNat = kk.toNat) : wordI c (fieldX w) kk = w := by
  apply BitVec.eq_of_toNat_eq
  rw [wordI_toNat, ← hc, ← hkk, fieldClass_toNat, fieldX_val, fieldKK_toNat]
  omega

theorem wordR_of_class {w : Word} {c n : Nibble} (hc : (fieldClass w).toNat = c.toNat)
    (hn : (fieldN w).toNat = n.toNat) : wordR c (fieldX w) (fieldY w) n = w := by
  apply BitVec.eq_of_toNat_eq
  rw [wordR_toNat, ← hc, ← hn, fieldClass_toNat, fieldX_val, fieldY_val, fieldN_toNat]
  omega

/-! ## Encode and decode are inverse to each other -/

/-- Settles O7: the fields of the word laid out for an instruction, the selector among them, are those it was built
from, and the decoder dispatches on them. -/
theorem decodeOfEncode : Obligations.DecodeOfEncode := by
  intro i
  cases i
  case ret => rfl
  all_goals simp [encode, decodeWord, decodeAlu, decodeMisc]

theorem encode_of_decodeAlu {w : Word} {i : Instr} (hc : (fieldClass w).toNat = 0x8) (h : decodeAlu w = .ok i) :
    encode i = w := by
  unfold decodeAlu at h
  split at h <;> cases h <;> exact wordR_of_class hc ‹_›

theorem encode_of_decodeMisc {w : Word} {i : Instr} (hc : (fieldClass w).toNat = 0xF) (h : decodeMisc w = .ok i) :
    encode i = w := by
  unfold decodeMisc at h
  split at h <;> cases h <;> exact wordI_of_class hc ‹_›

/-- Settles O8: along the classes of R55, each word is laid out from the fields that the decoder took from it. -/
theorem encodeOfDecode : Obligations.EncodeOfDecode := by
  intro w i h
  unfold decodeWord at h
  split at h
  case h_1 => split at h <;> cases h; exact Eq.symm ‹_›
  case h_6 hc => split at h <;> cases h; exact wordR_of_class hc ‹_›
  case h_9 hc => exact encode_of_decodeAlu hc h
  case h_13 hc => exact encode_of_decodeMisc hc h
  case h_14 => cases h
  case h_2 hc | h_3 hc | h_10 hc | h_11 hc => cases h; exact wordA_of_class hc
  all_goals cases h; exact wordI_of_class ‹_› rfl

/-! ## The words that the decoder rejects -/

theorem decodeAlu_error_iff (w : Word) :
    (∃ r, decodeAlu w = .error r) ↔ w.toNat % 16 ∈ [0x8, 0x9, 0xA, 0xB, 0xC, 0xD, 0xF] := by
  rw [← fieldN_toNat, decodeAlu]
  have hn := (fieldN w).isLt
  generalize (fieldN w).toNat = n at hn ⊢
  interval_cases n <;> simp

theorem decodeMisc_error_iff (w : Word) :
    (∃ r, decodeMisc w = .error r) ↔ w.toNat % 256 ∉ [0x07, 0x15, 0x18, 0x1E, 0x33, 0x55, 0x65] := by
  rw [← fieldKK_toNat, decodeMisc]
  split <;> simp_all

/-- Settles O9: class by class, the words that R55's function has no case for. -/
theorem unrecognisedWords : Obligations.UnrecognisedWords := by
  intro w
  have hclass : w.toNat / 4096 < 16 := by omega
  have hc : (fieldClass w).toNat = w.toNat / 4096 := by rw [fieldClass_toNat, Nat.mod_eq_of_lt hclass]
  have halu := decodeAlu_error_iff w
  have hmisc := decodeMisc_error_iff w
  have hret : w = 0x00EE#16 ↔ w.toNat = 0x00EE := BitVec.toNat_inj.symm
  rw [UnrecognisedWord, decodeWord, hc, fieldN_toNat]
  generalize w.toNat / 4096 = c at hclass ⊢
  match c, hclass with
  | 0x0, _ => by_cases h : w.toNat = 0x00EE <;> simp [hret, h]
  | 0x5, _ => by_cases h : w.toNat % 16 = 0 <;> simp [h]
  | 0x8, _ => simpa using halu
  | 0xF, _ => simpa using hmisc
  | 0x1, _ | 0x2, _ | 0x3, _ | 0x4, _ | 0x6, _ | 0x7, _ | 0xA, _ | 0xB, _ | 0xC, _ => simp
  | 0x9, _ | 0xD, _ | 0xE, _ => simp
  | _ + 16, hlarge => omega

/-- A word decodes exactly when R58 does not list it. -/
theorem exists_decodeWord_iff (w : Word) : (∃ i, decodeWord w = .ok i) ↔ ¬ UnrecognisedWord w := by
  rw [← unrecognisedWords w]
  cases decodeWord w <;> simp

/-! ## The mask and match columns of the opcode map (R56) -/

/-- A masked word is its class and its low `n` bits, `n` being 0, 4, 8 and 12 in the masks of the map. -/
theorem fits_low_iff (w : Word) {n : Nat} (hn : n ≤ 12) (m : String) (p : Word) :
    OpcodeRow.fits ⟨m, p, 0xF000#16 + BitVec.ofNat 16 (2 ^ n - 1)⟩ w = true ↔
      w.toNat / 4096 * 4096 + w.toNat % 2 ^ n = p.toNat := by
  rw [OpcodeRow.fits, beq_iff_eq, ← BitVec.toNat_inj, mask_low_toNat w hn]

theorem fits_mask_F000 (w : Word) (m : String) (p : Word) :
    OpcodeRow.fits ⟨m, p, 0xF000⟩ w = true ↔ w.toNat / 4096 * 4096 = p.toNat := by
  simpa [Nat.mod_one] using fits_low_iff w (n := 0) (by decide) m p

theorem fits_mask_F00F (w : Word) (m : String) (p : Word) :
    OpcodeRow.fits ⟨m, p, 0xF00F⟩ w = true ↔ w.toNat / 4096 * 4096 + w.toNat % 16 = p.toNat :=
  fits_low_iff w (n := 4) (by decide) m p

theorem fits_mask_F0FF (w : Word) (m : String) (p : Word) :
    OpcodeRow.fits ⟨m, p, 0xF0FF⟩ w = true ↔ w.toNat / 4096 * 4096 + w.toNat % 256 = p.toNat :=
  fits_low_iff w (n := 8) (by decide) m p

theorem fits_mask_FFFF (w : Word) (m : String) (p : Word) :
    OpcodeRow.fits ⟨m, p, 0xFFFF⟩ w = true ↔ w.toNat / 4096 * 4096 + w.toNat % 4096 = p.toNat :=
  fits_low_iff w (n := 12) (by decide) m p

theorem wideRows_any_fits (w : Word) : (wideRows.any fun r => r.fits w) = true ↔
    w.toNat = 0x00EE ∨ w.toNat / 4096 ∈ [0x1, 0x2, 0x3, 0x4, 0x6, 0x7, 0xA, 0xB, 0xC] := by
  simp only [wideRows, List.any_cons, List.any_nil, Bool.or_false, Bool.or_eq_true, List.mem_cons, List.not_mem_nil,
    or_false, fits_mask_F000, fits_mask_FFFF, BitVec.reduceToNat]
  omega

theorem pairRows_any_fits (w : Word) : (pairRows.any fun r => r.fits w) = true ↔
    w.toNat / 4096 = 0x5 ∧ w.toNat % 16 = 0 ∨
      w.toNat / 4096 = 0x8 ∧ w.toNat % 16 ∈ [0x0, 0x1, 0x2, 0x3, 0x4, 0x5, 0x6, 0x7, 0xE] := by
  simp only [pairRows, List.any_cons, List.any_nil, Bool.or_false, Bool.or_eq_true, List.mem_cons, List.not_mem_nil,
    or_false, fits_mask_F00F, BitVec.reduceToNat]
  omega

theorem selectorRows_any_fits (w : Word) : (selectorRows.any fun r => r.fits w) = true ↔
    w.toNat / 4096 = 0xF ∧ w.toNat % 256 ∈ [0x07, 0x15, 0x18, 0x1E, 0x33, 0x55, 0x65] := by
  simp only [selectorRows, List.any_cons, List.any_nil, Bool.or_false, Bool.or_eq_true, List.mem_cons, List.not_mem_nil,
    or_false, fits_mask_F0FF, BitVec.reduceToNat]
  omega

/-- The words of the map's rows are those that R58 does not list. -/
theorem wellFormedWord_iff (w : Word) : wellFormedWord w = true ↔ ¬ UnrecognisedWord w := by
  rw [wellFormedWord, opcodeRows, List.any_append, List.any_append, Bool.or_eq_true, Bool.or_eq_true,
    wideRows_any_fits, pairRows_any_fits, selectorRows_any_fits, UnrecognisedWord]
  have hclass : w.toNat / 4096 < 16 := by omega
  have hret : w.toNat = 0x00EE → w.toNat / 4096 = 0 := by omega
  generalize w.toNat / 4096 = c at hclass hret ⊢
  match c, hclass, hret with
  | 0x8, _, hret | 0xF, _, hret => simp [mt hret]; omega
  | 0x0, _, _ => simp
  | 0x5, _, hret => simp [mt hret]
  | 0x1, _, _ | 0x2, _, _ | 0x3, _, _ | 0x4, _, _ | 0x6, _, _ | 0x7, _, _ | 0xA, _, _ | 0xB, _, _ | 0xC, _, _ => simp
  | 0x9, _, hret | 0xD, _, hret | 0xE, _, hret => simp [mt hret]
  | _ + 16, hlarge, _ => omega

/-- Rows whose patterns agree wherever both masks select are the same row. -/
theorem row_eq_of_patterns_agree : ∀ r ∈ opcodeRows, ∀ q ∈ opcodeRows,
    r.pattern &&& q.mask = q.pattern &&& r.mask → r = q := by decide

/-- Two rows that one word fits are the same row. -/
theorem row_eq_of_fits {w : Word} {r q : OpcodeRow} (hr : r ∈ opcodeRows) (hq : q ∈ opcodeRows)
    (hrw : r.fits w = true) (hqw : q.fits w = true) : r = q := by
  rw [OpcodeRow.fits, beq_iff_eq] at hrw hqw
  apply row_eq_of_patterns_agree r hr q hq
  calc r.pattern &&& q.mask = w &&& r.mask &&& q.mask := by rw [hrw]
    _ = w &&& q.mask &&& r.mask := by rw [BitVec.and_assoc, BitVec.and_comm r.mask, ← BitVec.and_assoc]
    _ = q.pattern &&& r.mask := by rw [hqw]

theorem row_eq_of_mnemonic {r q : OpcodeRow} (hr : r ∈ opcodeRows) (hq : q ∈ opcodeRows)
    (h : r.mnemonic = q.mnemonic) : r = q :=
  List.inj_on_of_nodup_map (show (opcodeRows.map OpcodeRow.mnemonic).Nodup by decide) hr hq h

theorem rowFits : ∀ i : Instr, Laws.RowFits.Statement i
  | .ret => Laws.RowFits.ret
  | .jp nnn => Laws.RowFits.jp nnn
  | .call nnn => Laws.RowFits.call nnn
  | .sei x kk => Laws.RowFits.sei x kk
  | .snei x kk => Laws.RowFits.snei x kk
  | .ser x y => Laws.RowFits.ser x y
  | .ldi x kk => Laws.RowFits.ldi x kk
  | .addi x kk => Laws.RowFits.addi x kk
  | .mov x y => Laws.RowFits.mov x y
  | .or x y => Laws.RowFits.or x y
  | .and x y => Laws.RowFits.and x y
  | .xor x y => Laws.RowFits.xor x y
  | .add x y => Laws.RowFits.add x y
  | .sub x y => Laws.RowFits.sub x y
  | .shr x y => Laws.RowFits.shr x y
  | .subn x y => Laws.RowFits.subn x y
  | .shl x y => Laws.RowFits.shl x y
  | .lda nnn => Laws.RowFits.lda nnn
  | .jpo nnn => Laws.RowFits.jpo nnn
  | .rnd x kk => Laws.RowFits.rnd x kk
  | .gdt x => Laws.RowFits.gdt x
  | .sdt x => Laws.RowFits.sdt x
  | .sst x => Laws.RowFits.sst x
  | .adda x => Laws.RowFits.adda x
  | .bcd x => Laws.RowFits.bcd x
  | .stm x => Laws.RowFits.stm x
  | .ldm x => Laws.RowFits.ldm x

/-- Settles O10: both sides are the words outside R58's list; the row of the decoded instruction is one that the word
fits, and both its mnemonic and the word determine it among the rows. -/
theorem decoderMeetsOpcodeMap : Obligations.DecoderMeetsOpcodeMap := by
  refine fun w => ⟨(wellFormedWord_iff w).trans (exists_decodeWord_iff w).symm, fun i hi r hr => ?_⟩
  obtain ⟨q, hq, hmnemonic, hfits⟩ := rowFits i
  rw [encodeOfDecode w i hi] at hfits
  constructor
  · intro h
    rw [row_eq_of_fits hr hq h hfits, hmnemonic]
  · intro h
    rwa [row_eq_of_mnemonic hr hq (h.trans hmnemonic.symm)]

/-! ## Words of the map, and the step that runs a decoded word -/

/-- Settles O6: the decoder evaluated at the twelve words. -/
theorem decodeSampleWords : Obligations.DecodeSampleWords := by
  unfold Obligations.DecodeSampleWords
  decide

theorem decodeWord_of_decode {hi lo : Byte} {rest rest' : List Byte} {i : Instr}
    (h : decode (hi :: lo :: rest) = .ok (i, rest')) : decodeWord (wordOfBytes hi lo) = .ok i := by
  rw [decode] at h
  cases hd : decodeWord (wordOfBytes hi lo) <;> simp_all [Except.map]

/-- Settles O11: the fetch succeeds, so the step is the decoded instruction. -/
theorem stepRunsDecoded : Obligations.StepRunsDecoded := fun s i hpc h =>
  step_of_fetch ((fetchInstr_ok_iff s i).mpr
    ⟨_, fetchWord_of_le s (Nat.succ_le_succ hpc), decodeWord_of_decode h⟩)

end Sys2Proof.Proofs
end

section
/-! PROOFS. Control transfer: `JP`, `JPO`, `CALL` and `RET` in the terms of 40_control_flow.md R70 to R73, each read off
its row of `ownFault`, `pcAfter` and `effect`. -/

namespace Sys2Proof.Proofs

open Sys2Proof.Machine

/-- An instruction without a fault of its own completes where its new pc is in the image. -/
theorem exec_of_pcAfter_le {i : Instr} {s : State} (hf : ownFault i s = none)
    (h : pcAfter i s ≤ Config.maxAddress) :
    exec i s = .next (setPc (effect i s) (BitVec.ofNat 16 (pcAfter i s))) :=
  (exec_next_iff i s _).mpr ⟨hf, h, rfl⟩

/-- An immediate address always lies in the image (R54). -/
theorem addr12_le_maxAddress (nnn : Addr12) : nnn.toNat ≤ Config.maxAddress := Nat.le_of_lt_succ nnn.isLt

/-! ## The jumps -/

/-- Settles O13: the target always lies in the image, and a pc rewritten with itself is the state as it was. -/
theorem jpResult : Obligations.JpResult := by
  intro nnn s
  have hexec : exec (.jp nnn) s = .next (setPc s (BitVec.ofNat 16 nnn.toNat)) :=
    exec_of_pcAfter_le rfl (addr12_le_maxAddress nnn)
  refine ⟨⟨_, hexec, exec_next_pc hexec, onlyPc_setPc s _⟩, fun hself => ?_⟩
  have hpc : BitVec.ofNat 16 nnn.toNat = s.pc := by rw [← hself, BitVec.ofNat_toNat, BitVec.setWidth_eq]
  rw [hexec, hpc]
  rfl

/-- Settles O14: the two sides of the bound check on the unmasked sum. -/
theorem jpoResult : Obligations.JpoResult := by
  refine fun nnn s => ⟨fun hin => ?_, fun hout => exec_of_pcAfter_gt (i := .jpo nnn) rfl hout⟩
  have hexec := exec_of_pcAfter_le (i := .jpo nnn) rfl hin
  exact ⟨_, hexec, exec_next_pc hexec, onlyPc_setPc s _⟩

/-! ## Call and return -/

theorem pushStack_sp_val {s : State} (hsp : s.sp ≠ 15) (w : Word) : (pushStack s w).sp.val = s.sp.val + 1 :=
  Fin.val_add_one_of_lt (Fin.lt_last_iff_ne_last.mpr hsp)

theorem pushStack_top (s : State) (w : Word) : (pushStack s w).stack[(pushStack s w).sp] = w :=
  Vector.getElem_set_self (s.sp + 1).isLt

theorem pushStack_get_other (s : State) (w : Word) {j : Fin 16} (hj : j ≠ (pushStack s w).sp) :
    (pushStack s w).stack[j] = s.stack[j] :=
  setStack_get_other (setSp s (s.sp + 1)) hj w

theorem popStack_sp_val {s : State} (hsp : s.sp ≠ 0) : (popStack s).sp.val + 1 = s.sp.val := by
  have hval : (s.sp - 1).val = s.sp.val - 1 := Fin.val_sub_one_of_ne_zero hsp
  have hpos : s.sp.val ≠ 0 := Fin.val_ne_of_ne hsp
  rw [popStack_sp, hval]
  omega

/-- Settles O15: below depth 15 `CALL` is a push of its own pc, committed at a target that always lies in the image. -/
theorem callResult : Obligations.CallResult := by
  refine fun nnn s => ⟨fun hsp => ?_, fun hsp => exec_of_ownFault (if_pos hsp)⟩
  have hexec := exec_of_pcAfter_le (i := .call nnn) (if_neg hsp) (addr12_le_maxAddress nnn)
  exact ⟨_, hexec, exec_next_pc hexec, pushStack_sp_val hsp s.pc, pushStack_top s s.pc,
    fun _ => pushStack_get_other s s.pc, fun _ _ => rfl, rfl, ⟨rfl, rfl⟩, fun _ => rfl, rfl⟩

/-- Settles O16: on a stack that is not empty `RET` is a pop, committed at the popped address or stopped by the bound
check on it. -/
theorem retResult : Obligations.RetResult := by
  refine fun s => ⟨fun hsp hin => ?_, fun hsp => exec_of_ownFault (if_pos hsp),
    fun hsp hout => exec_of_pcAfter_gt (i := .ret) (if_neg hsp) hout⟩
  have hexec := exec_of_pcAfter_le (i := .ret) (if_neg hsp) hin
  exact ⟨_, hexec, BitVec.eq_of_toNat_eq (exec_next_pc hexec), popStack_sp_val hsp, fun _ => rfl,
    fun _ _ => rfl, rfl, ⟨rfl, rfl⟩, fun _ => rfl, rfl⟩

/-- Settles O58: with the invariant a stack that is not empty has a top inside the image, so that `RET` completes. -/
theorem retOnlyUnderflows : Obligations.RetOnlyUnderflows := by
  intro s f hi hfault
  obtain ⟨hcompletes, hempty, -⟩ := retResult s
  by_cases hsp : s.sp = 0
  · exact Host.Outcome.fault.inj (hfault.symm.trans (hempty hsp))
  · obtain ⟨-, -, hlive⟩ := (inv_iff s).mp hi
    have htop : s.stack[s.sp].toNat ≤ 0xFFE := hlive s.sp (Fin.pos_of_ne_zero hsp) le_rfl
    obtain ⟨t, hnext, -⟩ := hcompletes hsp (Nat.le_succ_of_le htop)
    rw [hnext] at hfault
    cases hfault

end Sys2Proof.Proofs
end

section
/-! PROOFS. The skips `SEI`, `SNEI` and `SER` in the terms of 41_skip.md R80 to R82: instructions without a fault or an
effect of their own, so that each row of `pcAfter` gives the whole result. -/

namespace Sys2Proof.Proofs

open Sys2Proof.Machine

/-- An instruction with no fault and no effect of its own moves pc to its row of R15's table and writes nothing else. -/
theorem exec_onlyPc_of_pcAfter {i : Instr} {s : State} {n : Nat} (hf : ownFault i s = none) (he : effect i s = s)
    (hpc : pcAfter i s = n) (hn : n ≤ Config.maxAddress) :
    ∃ t, exec i s = .next t ∧ t.pc.toNat = n ∧ OnlyPc s t := by
  subst hpc
  have hexec := exec_of_pcAfter_le hf hn
  rw [he] at hexec
  exact ⟨_, hexec, exec_next_pc hexec, onlyPc_setPc s _⟩

/-- Settles O18: the two branches of the row of `SEI` in R15's table. -/
theorem seiResult : Obligations.SeiResult := fun x kk _ =>
  ⟨fun heq => exec_onlyPc_of_pcAfter (i := .sei x kk) rfl rfl (if_pos heq),
    fun hne => exec_onlyPc_of_pcAfter (i := .sei x kk) rfl rfl (if_neg hne)⟩

/-- Settles O19: the two branches of the row of `SNEI`, whose condition is the inequality. -/
theorem sneiResult : Obligations.SneiResult := fun x kk _ =>
  ⟨fun hne => exec_onlyPc_of_pcAfter (i := .snei x kk) rfl rfl (if_pos hne),
    fun heq => exec_onlyPc_of_pcAfter (i := .snei x kk) rfl rfl (if_neg (not_not_intro heq))⟩

/-- Settles O20: the two branches of the row of `SER`, for any two registers, the same one included. -/
theorem serResult : Obligations.SerResult := fun x y _ =>
  ⟨fun heq => exec_onlyPc_of_pcAfter (i := .ser x y) rfl rfl (if_pos heq),
    fun hne => exec_onlyPc_of_pcAfter (i := .ser x y) rfl rfl (if_neg hne)⟩

end Sys2Proof.Proofs
end

section
/-! PROOFS. The immediates `LDI` and `ADDI` in the terms of 42_immediate.md R85 and R86: instructions without a fault of
their own whose effect is one register write. -/

namespace Sys2Proof.Proofs

open Sys2Proof.Machine

/-- An instruction with no fault of its own whose effect writes `b` to `V[x]` moves pc to its row of R15's table, leaves
`b` in that register and writes nothing else. -/
theorem exec_onlyReg_of_effect {i : Instr} {s : State} {x : Reg} {b : Byte} {n : Nat} (hf : ownFault i s = none)
    (he : effect i s = setV s x b) (hpc : pcAfter i s = n) (hn : n ≤ Config.maxAddress) :
    ∃ t, exec i s = .next t ∧ t.pc.toNat = n ∧ t.v[x] = b ∧ OnlyRegs (· = x) s t := by
  subst hpc
  have hexec := exec_of_pcAfter_le hf hn
  rw [he] at hexec
  exact ⟨_, hexec, exec_next_pc hexec, getV_setV_same s x b, onlyRegs_setV s x b _⟩

/-- Settles O21: the effect of `LDI` is the write of its immediate, for every register, `VF` included. -/
theorem ldiResult : Obligations.LdiResult := fun x kk _ =>
  exec_onlyReg_of_effect (i := .ldi x kk) rfl rfl rfl

/-- Settles O22: the effect of `ADDI` is one write of the byte sum, which drops the carry; the frame of that write keeps
`VF` where `VF` is not the destination. -/
theorem addiResult : Obligations.AddiResult := by
  intro x kk s hin
  obtain ⟨t, hexec, hpc, hsum, hframe⟩ := exec_onlyReg_of_effect (i := .addi x kk) rfl rfl rfl hin
  have hmod : t.v[x].toNat = (s.v[x].toNat + kk.toNat) % 256 := by
    rw [hsum]
    exact BitVec.toNat_add (getV s x) kk
  exact ⟨t, hexec, hpc, hmod, hframe⟩

end Sys2Proof.Proofs
end

section
/-! PROOFS. The register-register ALU in the terms of 43_alu.md R91 to R99: one register write for `MOV`, `OR`, `AND`
and `XOR`, and two for the five flag writers, in the order of the rule's lines (R90), so that the registers left behind
also say what happens where an operand is `VF`. -/

namespace Sys2Proof.Proofs

open Sys2Proof.Machine

/-! ## Two registers written -/

/-- An instruction with no fault of its own whose effect writes `b` to `V[p]` and then `c` to `V[q]` moves pc to its row
of R15's table and leaves every register at the last byte written to it; nothing else is written. -/
theorem exec_twoRegs_of_effect {i : Instr} {s : State} {p q : Reg} {b c : Byte} {n : Nat} (hf : ownFault i s = none)
    (he : effect i s = setV (setV s p b) q c) (hpc : pcAfter i s = n) (hn : n ≤ Config.maxAddress) :
    ∃ t, exec i s = .next t ∧ t.pc.toNat = n ∧ OnlyRegs (fun r => r = p ∨ r = q) s t ∧
      ∀ r : Reg, t.v[r] = if r = q then c else if r = p then b else s.v[r] := by
  subst hpc
  have hexec := exec_of_pcAfter_le hf hn
  rw [he] at hexec
  refine ⟨_, hexec, exec_next_pc hexec, onlyRegs_setV_setV s p q b c _, fun r => ?_⟩
  rw [setPc_v, setV_get, setV_get]

/-- With the flag written first, it stays in `VF` where the destination is another register, and the second byte is what
the destination holds in any case (R96 to R99). -/
theorem exec_flagThenReg_of_effect {i : Instr} {s : State} {x : Reg} {f b : Byte} {n : Nat} (hf : ownFault i s = none)
    (he : effect i s = setV (setV s 15 f) x b) (hpc : pcAfter i s = n) (hn : n ≤ Config.maxAddress) :
    ∃ t, exec i s = .next t ∧ t.pc.toNat = n ∧ OnlyRegs (fun r => r = x ∨ r = 15) s t ∧
      (x ≠ 15 → t.v[(15 : Fin 16)] = f) ∧ t.v[x] = b := by
  obtain ⟨t, hexec, hpc', hframe, hv⟩ := exec_twoRegs_of_effect hf he hpc hn
  have hframe' : OnlyRegs (fun r => r = x ∨ r = 15) s t := by simpa only [or_comm] using hframe
  refine ⟨t, hexec, hpc', hframe', fun hx => ?_, (hv x).trans (if_pos rfl)⟩
  rw [hv, if_neg hx.symm, if_pos rfl]

/-! ## The bytes written, as numbers -/

theorem carryFlag_toNat (a b : Byte) : (carryFlag a b).toNat = if a.toNat + b.toNat > 255 then 1 else 0 := by
  simp [carryFlag]

theorem greaterFlag_toNat (a b : Byte) : (greaterFlag a b).toNat = if a.toNat > b.toNat then 1 else 0 := by
  simp [greaterFlag]

theorem byte_sub_toNat (a b : Byte) : (a - b).toNat = (256 + a.toNat - b.toNat) % 256 := by
  have hb := b.isLt
  rw [BitVec.toNat_sub]
  omega

theorem byte_shiftRight_one_toNat (a : Byte) : (a >>> 1).toNat = a.toNat / 2 := by
  rw [BitVec.toNat_ushiftRight, Nat.shiftRight_one]

theorem byte_shiftLeft_one_toNat (a : Byte) : (a <<< 1).toNat = a.toNat * 2 % 256 := by
  rw [BitVec.toNat_shiftLeft, Nat.shiftLeft_eq]

/-- The difference of `SUB` and `SUBN`: of the two registers as they stand after the flag is written (R96, R98). -/
def flaggedDiff (s : State) (a b : Reg) : Byte :=
  let s1 := setV s 15 (greaterFlag (getV s a) (getV s b))
  getV s1 a - getV s1 b

/-- An operand that is `VF` counts as the flag just written, any other as it was (R90, D10). -/
theorem flaggedDiff_toNat (s : State) (a b : Reg) :
    (flaggedDiff s a b).toNat =
      (256 + (if a = 15 then (if s.v[a].toNat > s.v[b].toNat then 1 else 0) else s.v[a].toNat) -
        (if b = 15 then (if s.v[a].toNat > s.v[b].toNat then 1 else 0) else s.v[b].toNat)) % 256 := by
  rw [flaggedDiff, byte_sub_toNat, getV_setV, getV_setV, apply_ite BitVec.toNat, apply_ite BitVec.toNat,
    greaterFlag_toNat]
  rfl

/-! ## The five flag writers -/

/-- What `SUB` and `SUBN` have in common, for the minuend `V[a]` and the subtrahend `V[b]`: the strict flag in `VF`
where the destination is another register, and in the destination the difference that reads the flag. -/
theorem exec_flaggedDiff_of_effect {i : Instr} {s : State} {x a b : Reg} {n : Nat} (hf : ownFault i s = none)
    (he : effect i s = setV (setV s 15 (greaterFlag (getV s a) (getV s b))) x (flaggedDiff s a b))
    (hpc : pcAfter i s = n) (hn : n ≤ Config.maxAddress) :
    ∃ t, exec i s = .next t ∧ t.pc.toNat = n ∧ OnlyRegs (fun r => r = x ∨ r = 15) s t ∧
      (x ≠ 15 → t.v[(15 : Fin 16)].toNat = if s.v[a].toNat > s.v[b].toNat then 1 else 0) ∧
      t.v[x].toNat = (flaggedDiff s a b).toNat := by
  obtain ⟨t, hexec, hpc', hframe, hflag, hdest⟩ := exec_flagThenReg_of_effect hf he hpc hn
  refine ⟨t, hexec, hpc', hframe, fun hx => ?_, congrArg BitVec.toNat hdest⟩
  rw [hflag hx]
  exact greaterFlag_toNat (getV s a) (getV s b)

/-- Settles O25: the carry is the last write, so that it is what `VF` holds for every destination. -/
theorem addResult : Obligations.AddResult := by
  intro x y s hin
  obtain ⟨t, hexec, hpc, hframe, hv⟩ := exec_twoRegs_of_effect (i := .add x y) rfl rfl rfl hin
  refine ⟨t, hexec, hpc, hframe, fun hx => ?_, ?_⟩
  · rw [hv, if_neg hx, if_pos rfl]
    exact BitVec.toNat_add (getV s x) (getV s y)
  · rw [hv, if_pos rfl]
    exact carryFlag_toNat (getV s x) (getV s y)

/-- Settles O26: the difference with `V[x]` as the minuend, read off by which of its operands are `VF`; where both
are, the flag is subtracted from itself. -/
theorem subResult : Obligations.SubResult := by
  intro x y s hin
  obtain ⟨t, hexec, hpc, hframe, hflag, hdiff⟩ :=
    exec_flaggedDiff_of_effect (i := .sub x y) (a := x) (b := y) rfl rfl rfl hin
  rw [flaggedDiff_toNat] at hdiff
  refine ⟨t, hexec, hpc, hframe, hflag, fun hx hy => ?_, fun hx hy => ?_, fun hx hy => ?_, fun hx hy => ?_⟩
  · rw [hdiff, if_neg hx, if_neg hy]
  · rw [hdiff, if_neg hx, if_pos hy]
  · rw [hdiff, if_pos hx, if_neg hy]
  · rw [hdiff, if_pos hx, if_pos hy, Nat.add_sub_cancel]

/-- Settles O27: as for `SUB`, with `V[y]` as the minuend. -/
theorem subnResult : Obligations.SubnResult := by
  intro x y s hin
  obtain ⟨t, hexec, hpc, hframe, hflag, hdiff⟩ :=
    exec_flaggedDiff_of_effect (i := .subn x y) (a := y) (b := x) rfl rfl rfl hin
  rw [flaggedDiff_toNat] at hdiff
  refine ⟨t, hexec, hpc, hframe, hflag, fun hx hy => ?_, fun hx hy => ?_, fun hx hy => ?_, fun hx hy => ?_⟩
  · rw [hdiff, if_neg hx, if_neg hy]
  · rw [hdiff, if_neg hx, if_pos hy]
  · rw [hdiff, if_pos hx, if_neg hy]
  · rw [hdiff, if_pos hx, if_pos hy, Nat.add_sub_cancel]

/-- Settles O28: the half of the old byte, or with `VF` as the destination that of the flag, which is 0. -/
theorem shrResult : Obligations.ShrResult := by
  intro x y s hin
  obtain ⟨t, hexec, hpc, hframe, hflag, hdest⟩ := exec_flagThenReg_of_effect (i := .shr x y) rfl rfl rfl hin
  rw [getV_setV] at hdest
  refine ⟨t, hexec, hpc, hframe, fun hx => ⟨?_, ?_⟩, fun hx => ?_⟩
  · rw [hdest, if_neg hx]
    exact byte_shiftRight_one_toNat (getV s x)
  · rw [hflag hx]
    exact shiftedOutRight_toNat (getV s x)
  · rw [hdest, if_pos hx, byte_shiftRight_one_toNat, shiftedOutRight_toNat]
    omega

/-- Settles O29: the double of the old byte, or with `VF` as the destination that of the flag, which is 2 or 0. -/
theorem shlResult : Obligations.ShlResult := by
  intro x y s hin
  obtain ⟨t, hexec, hpc, hframe, hflag, hdest⟩ := exec_flagThenReg_of_effect (i := .shl x y) rfl rfl rfl hin
  rw [getV_setV] at hdest
  refine ⟨t, hexec, hpc, hframe, fun hx => ⟨?_, ?_⟩, fun hx => ?_⟩
  · rw [hdest, if_neg hx]
    exact byte_shiftLeft_one_toNat (getV s x)
  · rw [hflag hx]
    exact shiftedOutLeft_toNat (getV s x)
  · have hlt := s.v[x].isLt
    rw [hdest, if_pos hx, byte_shiftLeft_one_toNat, shiftedOutLeft_toNat, getV]
    split <;> omega

/-! ## The moves and the bitwise operations -/

/-- Settles O23: the effect of `MOV` is the write of the byte it read, for any two registers, the same one included. -/
theorem movResult : Obligations.MovResult := fun x y _ =>
  exec_onlyReg_of_effect (i := .mov x y) rfl rfl rfl

/-- Settles O24: each effect is one write of the combined byte, whose bits are those of the two operands combined. -/
theorem bitwiseResults : Obligations.BitwiseResults := by
  intro x y s hin
  refine ⟨?_, ?_, ?_⟩
  · obtain ⟨t, hexec, hpc, hbyte, hframe⟩ := exec_onlyReg_of_effect (i := .or x y) rfl rfl rfl hin
    exact ⟨t, hexec, hpc, hframe, fun _ _ => hbyte ▸ BitVec.getLsbD_or⟩
  · obtain ⟨t, hexec, hpc, hbyte, hframe⟩ := exec_onlyReg_of_effect (i := .and x y) rfl rfl rfl hin
    exact ⟨t, hexec, hpc, hframe, fun _ _ => hbyte ▸ BitVec.getLsbD_and⟩
  · obtain ⟨t, hexec, hpc, hbyte, hframe⟩ := exec_onlyReg_of_effect (i := .xor x y) rfl rfl rfl hin
    exact ⟨t, hexec, hpc, hframe, fun _ _ => hbyte ▸ BitVec.getLsbD_xor⟩

end Sys2Proof.Proofs
end

section
/-! PROOFS. The address register `I` in the terms of 44_address_register.md R105 and R106: instructions without a fault
of their own whose effect is one write of `I`. -/

namespace Sys2Proof.Proofs

open Sys2Proof.Machine

/-- An instruction with no fault of its own whose effect writes `w` to `I` moves pc to its row of R15's table, leaves
`w` in `I` and writes nothing else. -/
theorem exec_onlyI_of_effect {i : Instr} {s : State} {w : Word} {n : Nat} (hf : ownFault i s = none)
    (he : effect i s = setI s w) (hpc : pcAfter i s = n) (hn : n ≤ Config.maxAddress) :
    ∃ t, exec i s = .next t ∧ t.pc.toNat = n ∧ t.i = w ∧ OnlyPc s { t with i := s.i } := by
  subst hpc
  have hexec := exec_of_pcAfter_le hf hn
  rw [he] at hexec
  exact ⟨_, hexec, exec_next_pc hexec, rfl, onlyPc_setPc s _⟩

/-- The sum of `ADDA` wraps at 16 bits and nowhere below (R106, D12). -/
theorem word_add_zeroExtend_byte_toNat (w : Word) (b : Byte) :
    (w + b.zeroExtend 16).toNat = (w.toNat + b.toNat) % 65536 := by
  have hb : (b.zeroExtend 16).toNat = b.toNat := BitVec.toNat_setWidth_of_le (by decide)
  rw [BitVec.toNat_add, hb]

/-- Settles O30: the effect of `LDA` is the write of its immediate, whose zero extension has the same value. -/
theorem ldaResult : Obligations.LdaResult := by
  intro nnn s hin
  obtain ⟨t, hexec, hpc, hi, hframe⟩ := exec_onlyI_of_effect (i := .lda nnn) rfl rfl rfl hin
  exact ⟨t, hexec, hpc, (congrArg BitVec.toNat hi).trans (zext16_toNat nnn), hframe⟩

/-- Settles O31: the effect of `ADDA` is one write of the word sum; the frame of that write keeps every register, `VF`
included. -/
theorem addaResult : Obligations.AddaResult := by
  intro x s hin
  obtain ⟨t, hexec, hpc, hi, hframe⟩ := exec_onlyI_of_effect (i := .adda x) rfl rfl rfl hin
  have hsum := word_add_zeroExtend_byte_toNat s.i (getV s x)
  exact ⟨t, hexec, hpc, (congrArg BitVec.toNat hi).trans hsum, hframe⟩

end Sys2Proof.Proofs
end

section
/-! PROOFS. The random byte in the terms of 45_random.md R110 and R111: `RND` is one register write of a masked draw,
and no other instruction writes or reads the draw counter. -/

namespace Sys2Proof.Proofs

open Sys2Proof.Machine

/-! ## The draw counter -/

/-- `RND` alone counts a draw. -/
theorem effect_draws {i : Instr} (s : State) (hi : ∀ x kk, i ≠ .rnd x kk) : (effect i s).draws = s.draws := by
  cases i
  case rnd x kk => exact absurd rfl (hi x kk)
  all_goals rfl

theorem ownFault_with_draws (i : Instr) (s : State) (n : Nat) : ownFault i { s with draws := n } = ownFault i s := by
  cases i <;> rfl

theorem pcAfter_with_draws (i : Instr) (s : State) (n : Nat) : pcAfter i { s with draws := n } = pcAfter i s := by
  cases i <;> rfl

/-- `RND` alone reads the counter: the effect of any other instruction carries it along. -/
theorem effect_with_draws {i : Instr} (s : State) (hi : ∀ x kk, i ≠ .rnd x kk) (n : Nat) :
    effect i { s with draws := n } = { effect i s with draws := n } := by
  cases i
  case rnd x kk => exact absurd rfl (hi x kk)
  all_goals rfl

/-- Settles O51: neither the faults nor the new pc depend on the counter, and the effect of an instruction other than
`RND` neither writes nor reads it. -/
theorem randomnessOnlyInRnd : Obligations.RandomnessOnlyInRnd := by
  intro i s t hi h
  refine ⟨?_, fun n => ?_⟩
  · obtain ⟨-, -, rfl⟩ := (exec_next_iff i s t).mp h
    exact effect_draws s hi
  · exact exec_next_of_effect_eq ({ · with draws := n }) h (ownFault_with_draws i s n) (pcAfter_with_draws i s n)
      (effect_with_draws s hi n) fun _ _ => rfl

/-! ## The masked draw -/

/-- A masked byte has a 0 wherever its mask has one. -/
theorem byte_and_getLsbD_of_mask {b kk : Byte} {k : Nat} (hk : kk.getLsbD k = false) :
    (b &&& kk).getLsbD k = false := by
  rw [BitVec.getLsbD_and, hk, Bool.and_false]

/-- Settles O32: the effect of `RND` is one register write in the state that has counted the draw; with the counter put
back, the frame is that of the write alone. -/
theorem rndResult : Obligations.RndResult := by
  intro x kk s hin
  have hexec := exec_of_pcAfter_le (i := .rnd x kk) rfl hin
  have hbyte : (effect (.rnd x kk) s).v[x] = drawnByte s &&& kk := getV_setV_same (countDraw s) x _
  refine ⟨_, hexec, exec_next_pc hexec, hbyte, fun k _ hk => ?_, rfl, onlyRegs_setV s x _ _⟩
  exact (congrArg (·.getLsbD k) hbyte).trans (byte_and_getLsbD_of_mask hk)

end Sys2Proof.Proofs
end

section
/-! PROOFS. The timer access instructions in the terms of 46_timers.md R113 to R115: instructions without a fault of
their own whose effect is one write, of a register from `DT` or of a timer from a register. -/

namespace Sys2Proof.Proofs

open Sys2Proof.Machine

/-- Settles O33: the effect of `GDT` is the write of `DT` to a register, and the frame of a register write keeps both
timers. -/
theorem gdtResult : Obligations.GdtResult := fun x _ =>
  exec_onlyReg_of_effect (i := .gdt x) rfl rfl rfl

/-- Settles O34: each effect is one write of `V[x]` to its timer; with that timer put back, the state differs from the
old one in pc alone. -/
theorem timerWriteResults : Obligations.TimerWriteResults := by
  intro x s hin
  have hsdt := exec_of_pcAfter_le (i := .sdt x) rfl hin
  have hsst := exec_of_pcAfter_le (i := .sst x) rfl hin
  refine ⟨?_, ?_⟩
  · exact ⟨_, hsdt, exec_next_pc hsdt, rfl, onlyPc_setPc s _⟩
  · exact ⟨_, hsst, exec_next_pc hsst, rfl, onlyPc_setPc s _⟩

end Sys2Proof.Proofs
end

section
/-! PROOFS. The memory instructions in the terms of 47_memory_ops.md R118 to R121: without a range fault `BCD` and `STM`
store one run of bytes at `I`, and `LDM` loads the registers up to `x` from there. -/

namespace Sys2Proof.Proofs

open Sys2Proof.Machine

theorem rangeFault_of_le {s : State} {k : Nat} (h : s.i.toNat + k ≤ 0xFFF) : rangeFault s k = none :=
  if_neg (not_lt_of_ge h)

/-! ## A run of bytes stored at `I` -/

/-- An instruction with no fault of its own whose effect stores the bytes `us` at `I` moves pc to its row of R15's table
and writes no byte outside that run and no other field. -/
theorem exec_storeAtI_of_effect {i : Instr} {s : State} {us : List Byte} {n : Nat} (hf : ownFault i s = none)
    (he : effect i s = setMem s (storeBytes s.mem s.i.toNat us)) (hpc : pcAfter i s = n)
    (hn : n ≤ Config.maxAddress) :
    ∃ t, exec i s = .next t ∧ t.pc.toNat = n ∧ t.mem = storeBytes s.mem s.i.toNat us ∧
      MemKeptOutside s.i.toNat us.length s t ∧ OnlyPc s { t with mem := s.mem } := by
  subst hpc
  have hexec := exec_of_pcAfter_le hf hn
  rw [he] at hexec
  exact ⟨_, hexec, exec_next_pc hexec, rfl, memKeptOutside_storeBytes s s.i.toNat us, onlyPc_setPc s _⟩

/-- The digits are the byte's three decimal ones, each of which fits a byte (R118). -/
theorem bcdDigits_toNat (b : Byte) :
    (bcdDigits b)[0].toNat = b.toNat / 100 ∧ (bcdDigits b)[1].toNat = b.toNat / 10 % 10 ∧
      (bcdDigits b)[2].toNat = b.toNat % 10 := by
  have hb := b.isLt
  simp only [bcdDigits, List.getElem_cons_zero, List.getElem_cons_succ, BitVec.toNat_ofNat]
  omega

/-- Settles O35: the effect of `BCD` stores the three digits at `I`, and a stored run is read back byte for byte. -/
theorem bcdResult : Obligations.BcdResult := by
  intro x s hrange hin
  obtain ⟨t, hexec, hpc, hmem, hkept, hframe⟩ :=
    exec_storeAtI_of_effect (i := .bcd x) (rangeFault_of_le hrange) rfl rfl hin
  refine ⟨t, hexec, hpc, hkept, hframe, fun hm => ?_⟩
  have hstored : ∀ (k : Nat) (hk : k < 3), memGet t.mem (s.i.toNat + k) = (bcdDigits s.v[x])[k] := fun k hk => by
    rw [hmem]
    exact memGet_storeBytes_inside hm (Nat.succ_le_succ hrange) hk
  obtain ⟨hhundreds, htens, hunits⟩ := bcdDigits_toNat s.v[x]
  exact ⟨(congrArg BitVec.toNat (hstored 0 (by decide))).trans hhundreds,
    (congrArg BitVec.toNat (hstored 1 (by decide))).trans htens,
    (congrArg BitVec.toNat (hstored 2 (by decide))).trans hunits⟩

/-- Settles O36: the effect of `STM` stores the first `x + 1` registers at `I`. -/
theorem stmResult : Obligations.StmResult := by
  intro x s hrange hin
  obtain ⟨t, hexec, hpc, -, hkept, hframe⟩ :=
    exec_storeAtI_of_effect (i := .stm x) (us := firstRegs s x) (rangeFault_of_le hrange) rfl rfl hin
  rw [firstRegs_length] at hkept
  exact ⟨t, hexec, hpc, hkept, hframe, fun hm _ hk => exec_stm_memGet hexec hm hk⟩

/-! ## The registers loaded from `I` -/

/-- Settles O37: the effect of `LDM` loads the registers up to `x`, and that is within the frame of a load. -/
theorem ldmResult : Obligations.LdmResult := by
  intro x s hrange hin
  have hexec := exec_of_pcAfter_le (i := .ldm x) (rangeFault_of_le hrange) hin
  refine ⟨_, hexec, exec_next_pc hexec, fun k hk => ?_, onlyRegs_loadRegs s _ x _⟩
  exact (getV_loadRegs s (effAddr s 0) x k).trans (if_pos hk)

/-- Settles O38: `STM` keeps `I`, so that `LDM` reads at the address where each register was stored. -/
theorem stmThenLdm : Obligations.StmThenLdm := by
  intro x s u hm hrange hin hi hinU
  obtain ⟨t, hstm, -, -, ⟨-, hti, -⟩, hstored⟩ := stmResult x s hrange hin
  obtain ⟨w, hldm, -, hloaded, -, hwi, -⟩ :=
    ldmResult x { u with mem := t.mem } (by rwa [hi]) hinU
  refine ⟨t, w, hstm, hti, hldm, hwi.trans hi, fun k hk => ?_⟩
  calc w.v[k] = memGet t.mem (u.i.toNat + k.val) := hloaded k hk
    _ = memGet t.mem (s.i.toNat + k.val) := by rw [hi]
    _ = s.v[k] := hstored hm k hk

end Sys2Proof.Proofs
end

section
/-! PROOFS. The faults of a step in the terms of 60_exceptions.md R130 to R149: every cause that a fault can have, that
the block is as before it, and the runs of steps and ticks in which every step leaves the state as it was. -/

namespace Sys2Proof.Proofs

open Sys2Proof.Machine

/-! ## One instruction -/

/-- Settles O42: an instruction is its own fault, or else the commit of its effect with both sides of the bound
check. -/
theorem faultsExactly : Obligations.FaultsExactly := fun _ _ =>
  ⟨fun _ => exec_of_ownFault, exec_of_pcAfter_gt, fun hf hle =>
    have hexec := exec_of_pcAfter_le hf hle
    ⟨_, hexec, exec_next_pc hexec⟩⟩

/-- An instruction faults with its own fault, or for a new pc outside the image (R134). -/
theorem exec_fault_iff (i : Instr) (s : State) (f : Fault) :
    exec i s = .fault f ↔ ownFault i s = some f ∨
      ownFault i s = none ∧ Config.maxAddress < pcAfter i s ∧ f = .addressOutOfRange (pcAfter i s) := by
  rw [exec_shape]
  cases ownFault i s with
  | some g => simp
  | none => simp [commit_fault_iff]

theorem exec_not_refused (i : Instr) (s : State) (r : Refusal) : exec i s ≠ .refused r := by
  rw [exec_shape]
  cases ownFault i s with
  | some f => simp
  | none => exact commit_not_refused _ _ r

theorem rangeFault_some {s : State} {k : Nat} {f : Fault} (h : rangeFault s k = some f) :
    0xFFF < s.i.toNat + k ∧ f = .addressOutOfRange (max s.i.toNat 0x1000) := by
  unfold rangeFault at h
  split at h
  · exact ⟨‹_›, (Option.some.inj h).symm⟩
  · cases h

/-! ## One step -/

/-- A step answers what the fetched instruction answers, or the fault of the fetch and decode. -/
theorem step_fault_iff (s : State) (f : Fault) :
    step s = .fault f ↔ fetchInstr s = .error f ∨ ∃ i, fetchInstr s = .ok i ∧ exec i s = .fault f := by
  cases h : fetchInstr s with
  | error g => simp [step_of_fetch_error h]
  | ok i => simp [step_of_fetch h]

/-- `i` is a memory instruction that accesses data up to `I + k` (R130). -/
inductive AccessesUpTo : Instr → Nat → Prop where
  | bcd (x : Reg) : AccessesUpTo (.bcd x) 2
  | stm (x : Reg) : AccessesUpTo (.stm x) x.val
  | ldm (x : Reg) : AccessesUpTo (.ldm x) x.val

/-- The rows of R130 for `step()`: the causes that a fault of a step can have, each with its payload. -/
inductive FaultCause (s : State) : Fault → Prop where
  /-- No word lies at pc (R34). -/
  | fetch (hpc : 0xFFE < s.pc.toNat) : FaultCause s (.addressOutOfRange (max s.pc.toNat 0x1000))
  /-- The word at pc is in R58's list (R132). -/
  | decode {w : Word} (hpc : s.pc.toNat ≤ 0xFFE)
      (hw : w = memGet s.mem s.pc.toNat ++ memGet s.mem (s.pc.toNat + 1)) (hd : UnrecognisedWord w) :
      FaultCause s (.unrecognizedInstruction w s.pc)
  /-- `RET` with an empty stack (R70). -/
  | underflow (hi : fetchInstr s = .ok .ret) (hsp : s.sp = 0) : FaultCause s .stackUnderflow
  /-- `CALL` at depth 15 (R72). -/
  | overflow {nnn : Addr12} (hi : fetchInstr s = .ok (.call nnn)) (hsp : s.sp = 15) : FaultCause s .stackOverflow
  /-- A memory instruction whose data leaves the image (R39). -/
  | dataRange {i : Instr} {k : Nat} (hi : fetchInstr s = .ok i) (hk : AccessesUpTo i k)
      (hout : 0xFFF < s.i.toNat + k) : FaultCause s (.addressOutOfRange (max s.i.toNat 0x1000))
  /-- A new pc outside the image, after no fault of the instruction's own (R15, R50 step 5). -/
  | newPc {i : Instr} (hi : fetchInstr s = .ok i) (hf : ownFault i s = none) (hout : 0xFFF < pcAfter i s) :
      FaultCause s (.addressOutOfRange (pcAfter i s))

theorem faultCause_of_fetchInstr_error {s : State} {f : Fault} (h : fetchInstr s = .error f) : FaultCause s f := by
  rcases (fetchInstr_error_iff s f).mp h with hfetch | ⟨w, r, hfetch, hdecode, rfl⟩
  · obtain ⟨hpc, rfl⟩ := fetchWord_error hfetch
    exact .fetch (Nat.lt_of_succ_lt_succ hpc)
  · obtain ⟨hpc, hw⟩ := fetchWord_ok hfetch
    exact .decode (Nat.le_of_succ_le_succ hpc) hw ((unrecognisedWords w).mp ⟨r, hdecode⟩)

theorem faultCause_of_rangeFault {s : State} {i : Instr} {k : Nat} {f : Fault} (hi : fetchInstr s = .ok i)
    (hk : AccessesUpTo i k) (h : rangeFault s k = some f) : FaultCause s f := by
  obtain ⟨hout, rfl⟩ := rangeFault_some h
  exact .dataRange hi hk hout

theorem faultCause_of_ownFault {s : State} {i : Instr} {f : Fault} (hi : fetchInstr s = .ok i)
    (h : ownFault i s = some f) : FaultCause s f := by
  cases i
  case ret =>
    obtain ⟨hsp, ⟨⟩⟩ := Option.ite_none_right_eq_some.mp h
    exact .underflow hi hsp
  case call nnn =>
    obtain ⟨hsp, ⟨⟩⟩ := Option.ite_none_right_eq_some.mp h
    exact .overflow hi hsp
  case bcd x => exact faultCause_of_rangeFault hi (.bcd x) h
  case stm x => exact faultCause_of_rangeFault hi (.stm x) h
  case ldm x => exact faultCause_of_rangeFault hi (.ldm x) h
  all_goals cases h

/-- Everything a faulting step can mean, once. -/
theorem faultCause_of_step {s : State} {f : Fault} (h : step s = .fault f) : FaultCause s f := by
  rcases (step_fault_iff s f).mp h with herror | ⟨i, hi, hexec⟩
  · exact faultCause_of_fetchInstr_error herror
  · rcases (exec_fault_iff i s f).mp hexec with hown | ⟨hf, hout, rfl⟩
    · exact faultCause_of_ownFault hi hown
    · exact .newPc hi hf hout

/-- Settles O43: each row of the causes is one clause of the statement. -/
theorem stepFaultCauses : Obligations.StepFaultCauses := by
  intro s f h
  refine ⟨?_, ?_, ?_, ?_⟩
  · rintro w a rfl
    obtain ⟨⟩ | ⟨hpc, hw, hd⟩ := faultCause_of_step h
    exact ⟨rfl, hpc, hw, hd⟩
  · rintro rfl
    cases faultCause_of_step h with
    | underflow hi hsp => exact ⟨hsp, hi⟩
  · rintro rfl
    cases faultCause_of_step h with
    | overflow hi hsp => exact ⟨hsp, _, hi⟩
  · rintro a rfl
    cases faultCause_of_step h with
    | fetch hpc => exact .inl ⟨hpc, rfl⟩
    | newPc hi hf hout => exact .inr ⟨_, hi, .inr ⟨hf, hout, rfl⟩⟩
    | dataRange hi hk hout =>
      refine .inr ⟨_, hi, .inl ?_⟩
      cases hk with
      | bcd x => exact ⟨x, .inl ⟨rfl, hout⟩, rfl⟩
      | stm x => exact ⟨x, .inr ⟨.inl rfl, hout⟩, rfl⟩
      | ldm x => exact ⟨x, .inr ⟨.inr rfl, hout⟩, rfl⟩

/-- Settles O44: the causes of a step's faults have no row for it. -/
theorem stepNeverProgramTooLarge : Obligations.StepNeverProgramTooLarge := by
  intro s h
  cases faultCause_of_step h

/-- Settles O45: a step is a fault of the fetch and decode or an instruction, and no instruction is refused. -/
theorem stepNeverRefused : Obligations.StepNeverRefused := by
  intro s r
  cases h : fetchInstr s with
  | error f => simp [step_of_fetch_error h]
  | ok i => rw [step_of_fetch h]; exact exec_not_refused i s r

/-- Settles O12: the fetch succeeds and the decoder rejects its word; the fault leaves the block as it was. -/
theorem stepReportsUnrecognised : Obligations.StepReportsUnrecognised := by
  intro s hpc ⟨r, hdecode⟩
  have hfetch := fetchWord_of_le s (Nat.succ_le_succ hpc)
  have hstep := step_of_fetch_error ((fetchInstr_error_iff s _).mpr (.inr ⟨_, r, hfetch, hdecode, rfl⟩))
  exact ⟨hstep, congrArg (settle s) hstep⟩

/-! ## One operation of the block -/

/-- A faulting operation that answers an `Outcome` leaves the block as it was. -/
theorem settle_fault {s : State} {r : Result} {f : Fault} (h : (settle s r).2 = .fault f) :
    (settle s r).1 = .live s := by
  cases r with
  | next t => cases h
  | fault g => rfl
  | refused q => rfl

theorem settleWrite_fault {s : State} {r : Except Fault State} {f : Fault} (h : (settleWrite s r).2 = .fault f) :
    (settleWrite s r).1 = .live s := by
  cases r with
  | ok t => cases h
  | error g => rfl

/-- A read leaves the block as it was, whatever it answers (R31). -/
theorem hostOp_read_block (s : State) (a : Nat) : (hostOp (.read a) (.live s)).1 = .live s := by
  rcases Nat.lt_or_ge Config.maxAddress a with hout | hin
  · rw [hostOp_read_of_gt s hout]
  · rw [hostOp_read_of_le s hin]

/-- Settles O47: the operations that can fault are those that settle an outcome and the read. -/
theorem faultLeavesBlock : Obligations.FaultLeavesBlock := by
  intro op b f h
  cases b with
  | unreset => cases op <;> cases h
  | live s =>
    cases op with
    | load bytes => exact settle_fault h
    | step => exact settle_fault h
    | write a u => exact settleWrite_fault h
    | writeInstruction a w => exact settleWrite_fault h
    | read a => exact hostOp_read_block s a
    | reset | tick | seed | inspect => cases h

/-- Settles O52: both timers go down by one, in truncated subtraction. -/
theorem tickResult : Obligations.TickResult := fun s =>
  ⟨tick s, rfl, tickTimer_toNat s.dt, tickTimer_toNat s.st, rfl⟩

/-! ## Runs of steps and ticks -/

theorem isRunOp_cases {op : HostOp} (h : isRunOp op = true) : op = .step ∨ op = .tick := by
  cases op
  case step => exact .inl rfl
  case tick => exact .inr rfl
  all_goals cases h

/-- Where each step from a state with `P` leaves it as it is and answers `r`, and ticks keep `P`, a run of steps and
ticks answers `r` to each step and `Ok` to each tick, and changes nothing but the timers. -/
theorem runHost_of_step_idle {P : State → Prop} {r : OpResult}
    (hstep : ∀ s, P s → hostOp .step (.live s) = (.live s, r)) (htick : ∀ s, P s → P (tick s))
    {ops : List HostOp} (hops : ops.all isRunOp = true) {s : State} (hs : P s) :
    ∃ t, runHost ops (.live s) = (.live t, ops.map fun op => if op = .step then r else .ok) ∧ P t ∧
      { t with dt := s.dt, st := s.st } = s := by
  induction ops generalizing s with
  | nil => exact ⟨s, rfl, hs, rfl⟩
  | cons op ops ih =>
    rw [List.all_cons, Bool.and_eq_true] at hops
    obtain ⟨hop, hrest⟩ := hops
    rcases isRunOp_cases hop with rfl | rfl
    · obtain ⟨t, hrun, ht, hframe⟩ := ih hrest hs
      exact ⟨t, by simp [runHost, hstep s hs, hrun], ht, hframe⟩
    · obtain ⟨t, hrun, ht, hframe⟩ := ih hrest (htick s hs)
      refine ⟨t, by simp [runHost, hostOp, liveOp, hrun], ht, ?_⟩
      exact congrArg (fun u : State => { u with dt := s.dt, st := s.st }) hframe

/-- A tick does not change what a faulting step answers. -/
theorem step_tick_fault {s : State} {f : Fault} (h : step s = .fault f) : step (tick s) = .fault f := by
  simpa only [step_fault_iff, exec_fault_iff, fetchInstr_tick, ownFault_tick, pcAfter_tick] using h

/-- Settles O46: a fault leaves the state as it was, and ticks keep it faulting. -/
theorem faultPersists : Obligations.FaultPersists := by
  intro s f h ops hops
  obtain ⟨t, hrun, -⟩ := runHost_of_step_idle (P := fun s => step s = .fault f) (r := .fault f)
    (fun s hs => congrArg (settle s) hs) (fun _ => step_tick_fault) hops h
  rw [hrun]

end Sys2Proof.Proofs
end

section
/-! PROOFS. Reset, load and the end of a run in the terms of 70_reset_and_hazards.md R160 to R166. -/

namespace Sys2Proof.Proofs

open Sys2Proof.Machine

/-! ## Call and return, and the end of a run -/

/-- An instruction without a fault of its own is committed at the word that stands for its new pc. -/
theorem exec_of_pcAfter_eq {i : Instr} {s : State} {w : Word} (hf : ownFault i s = none)
    (hpc : pcAfter i s = w.toNat) (hle : w.toNat ≤ Config.maxAddress) :
    exec i s = .next (setPc (effect i s) w) := by
  rw [exec_of_pcAfter_le hf (hpc.trans_le hle), hpc, BitVec.ofNat_toNat, BitVec.setWidth_eq]

/-- Settles O17: the `CALL` pushes its own pc, which lies in the image, so that the `RET` pops that and completes. -/
theorem callThenRet : Obligations.CallThenRet := by
  intro nnn s hsp hpc
  have hf : ownFault (.call nnn) s = none := if_neg hsp
  have hcall : exec (.call nnn) s = .next (setPc (pushStack s s.pc) (zext16 nnn)) :=
    exec_of_pcAfter_eq hf (zext16_toNat nnn).symm ((zext16_toNat nnn).trans_le (addr12_le_maxAddress nnn))
  have hret := exec_of_pcAfter_eq (i := .ret) (s := setPc (pushStack s s.pc) (zext16 nnn))
    (if_neg (sp_add_one_ne_zero hf)) (congrArg BitVec.toNat (pushStack_top s s.pc)) hpc
  have hsp' : s.sp + 1 - 1 = s.sp := add_sub_cancel_right s.sp 1
  refine ⟨_, _, hcall, hret, rfl, hsp', fun j hj => ?_, ?_⟩
  · refine pushStack_get_other s s.pc fun h => hj ?_
    rw [h, pushStack_sp_val hsp]
  · exact congrArg (setSp s) hsp'

/-- A step at the end of a run is a jump to itself and changes nothing (R71, R164). -/
theorem step_of_endedAt {a : Addr12} {s : State} (h : EndedAt a s) : step s = .next s := by
  obtain ⟨hpc, hfetch⟩ := h
  rw [step_of_fetch hfetch]
  exact (jpResult a s).2 hpc

theorem endedAt_tick {a : Addr12} {s : State} (h : EndedAt a s) : EndedAt a (tick s) := h

theorem safeRun_map_ok (ops : List HostOp) : SafeRun (ops.map fun _ => .ok) := by
  intro r hr
  obtain ⟨-, -, rfl⟩ := List.mem_map.mp hr
  simp

/-- Settles O59: each step leaves an ended run as it is, and ticks keep it ended. -/
theorem endedRunStaysEnded : Obligations.EndedRunStaysEnded := by
  intro a s ops h hops
  obtain ⟨t, hrun, ht, hframe⟩ := runHost_of_step_idle (r := .ok)
    (fun s (hs : EndedAt a s) => congrArg (settle s) (step_of_endedAt hs)) (fun _ => endedAt_tick) hops h
  simp only [ite_self] at hrun
  rw [hrun]
  exact ⟨t, rfl, safeRun_map_ok ops, ht, hframe⟩

/-! ## Reset and load -/

theorem isResetState_resetBlock (s : State) : IsResetState (resetBlock s) := by
  refine ⟨fun r => ?_, rfl, rfl, rfl, fun j => ?_, rfl, rfl, fun _ => rfl⟩
  · exact Vector.getElem_replicate r.isLt
  · exact Vector.getElem_replicate j.isLt

/-- Settles O1: both branches of `reset()`, on a live block and on an unreset one. -/
theorem resetState : Obligations.ResetState := by
  have hreset : IsResetState State.reset := isResetState_resetBlock State.reset
  refine ⟨hreset, fun b => ?_⟩
  cases b with
  | unreset => exact ⟨_, rfl, hreset⟩
  | live s => exact ⟨_, rfl, isResetState_resetBlock s⟩

theorem hostOp_load_of_le (s : State) {bytes : List Byte} (h : bytes.length ≤ Config.maxProgram) :
    hostOp (.load bytes) (.live s) = (.live (setMem s (storeBytes s.mem Config.entry bytes)), .ok) :=
  congrArg (settle s) ((load_next_iff s _ bytes).mpr ⟨h, rfl⟩)

theorem hostOp_load_of_gt (s : State) {bytes : List Byte} (h : Config.maxProgram < bytes.length) :
    hostOp (.load bytes) (.live s) = (.live s, .fault .programTooLarge) :=
  congrArg (settle s) (if_pos h)

/-- Settles O53: a program that fits is a run of bytes stored at `0x200`, inside the image. -/
theorem loadResult : Obligations.LoadResult := by
  refine fun s bytes => ⟨fun hlen => ?_, hostOp_load_of_gt s⟩
  refine ⟨_, hostOp_load_of_le s hlen, memKeptOutside_storeBytes s Config.entry bytes, setMem_restore s _,
    fun hm _ hk => memGet_storeBytes_inside hm ?_ hk⟩
  exact Nat.add_le_add_left hlen Config.entry

/-- Settles O60: the load in the reset state, whose memory is canonical and reads zero everywhere. -/
theorem bootState : Obligations.BootState := by
  intro bytes hlen
  obtain ⟨t, hload, hkept, hframe, hbytes⟩ := (loadResult State.reset bytes).1 hlen
  have hmem : { t with mem := [] } = State.reset := hframe
  have hreset : hostOp .reset .unreset = (.live State.reset, .ok) := rfl
  refine ⟨t, ?_, hbytes rfl, hkept, ?_⟩
  · rw [runHost, hreset, runHost, hload, runHost]
  · rw [hmem]
    exact isResetState_resetBlock State.reset

end Sys2Proof.Proofs
end
